-- ==== Sys2Proof/Word.lean ====
section
/-! DEFINITION. The two word types of the block: the byte of the buffers and of the wire format, and the 32-bit
word of ARG, RESULT and the u32 fields (00_scope.md R9, R10). -/

namespace Sys2Proof

/-- A byte: 8 bits, bit 0 the least significant (00_scope.md R10). -/
abbrev Byte := BitVec 8

/-- A u32: 32 bits, unsigned (00_scope.md R9, R10). -/
abbrev Word := BitVec 32

/-- A byte sequence; index 0 is the head (00_scope.md R11). -/
abbrev Bytes := List Byte

end Sys2Proof
end

