-- ==== Sys2Proof/Config.lean ====
section
/-! DEFINITION. The three OPEN implementation parameters (00_scope.md R8): capacities of IN, OUT and SEQ. A machine
state carries its parameters (log entry 1), so a statement about every state is a statement about every choice of them. -/

namespace Sys2Proof

/-- `MAX_IN`, `MAX_OUT` (bytes) and `MAX_CHUNKS` (chunks): natural numbers, since the spec only compares with them. -/
structure Config where
  maxIn     : Nat
  maxOut    : Nat
  maxChunks : Nat
deriving DecidableEq, Repr

/-- The constraint column of 00_scope.md R8. -/
abbrev Config.Valid (c : Config) : Prop :=
  (20 ≤ c.maxIn ∧ c.maxIn ≤ 2 ^ 32 - 1) ∧ (20 ≤ c.maxOut ∧ c.maxOut ≤ 2 ^ 32 - 1) ∧
    (1 ≤ c.maxChunks ∧ c.maxChunks ≤ 2 ^ 32 - 1)

/-- The parameters 95_test_vectors.md uses unless a vector says otherwise. DESIGN CHOICE (log entry 1): they are the
parameters of `State.reset` only. -/
def Config.vectors : Config := ⟨4096, 4096, 16⟩

end Sys2Proof
end

