-- ==== Sys2Proof/Syntax.lean ====
section
/-! DEFINITION. The command set (30_encoding.md R42), the host's transactions (R50) and what a read answers. -/

namespace Sys2Proof

/-- The 28 commands, one constructor per row of the opcode table. A command word carries no operand field and no
immediate (30_encoding.md R44), so no constructor has an argument. -/
inductive Instr where
  /-- CRC32, 40_crc_u32.md R58. -/
  | crc32
  /-- U32_DEC, 40_crc_u32.md R59. -/
  | u32Dec
  /-- U32_ENC, 40_crc_u32.md R60. -/
  | u32Enc
  /-- TYPE_FROM_STR, 41_chunk_type.md R62. -/
  | typeFromStr
  /-- TYPE_FROM_BYTES, 41_chunk_type.md R63. -/
  | typeFromBytes
  /-- TYPE_READ, 41_chunk_type.md R64. -/
  | typeRead
  /-- TYPE_IS_VALID, 41_chunk_type.md R65. -/
  | typeIsValid
  /-- TYPE_IS_CRITICAL, 41_chunk_type.md R66. -/
  | typeIsCritical
  /-- TYPE_IS_PUBLIC, 41_chunk_type.md R67. -/
  | typeIsPublic
  /-- TYPE_IS_RESERVED_BIT_VALID, 41_chunk_type.md R68. -/
  | typeIsReservedBitValid
  /-- TYPE_IS_SAFE_TO_COPY, 41_chunk_type.md R69. -/
  | typeIsSafeToCopy
  /-- CHUNK_NEW, 42_chunk.md R72. -/
  | chunkNew
  /-- CHUNK_PARSE, 42_chunk.md R73. -/
  | chunkParse
  /-- CHUNK_LENGTH, 42_chunk.md R74. -/
  | chunkLength
  /-- CHUNK_TYPE, 42_chunk.md R75. -/
  | chunkType
  /-- CHUNK_DATA, 42_chunk.md R76. -/
  | chunkData
  /-- CHUNK_CRC, 42_chunk.md R77. -/
  | chunkCrc
  /-- CHUNK_DATA_AS_STRING, 42_chunk.md R78. -/
  | chunkDataAsString
  /-- CHUNK_SERIALIZE, 42_chunk.md R81. -/
  | chunkSerialize
  /-- PNG_CLEAR, 43_container.md R86. -/
  | pngClear
  /-- PNG_PARSE, 43_container.md R87. -/
  | pngParse
  /-- PNG_APPEND, 43_container.md R88. -/
  | pngAppend
  /-- PNG_FIND, 43_container.md R89. -/
  | pngFind
  /-- PNG_REMOVE_FIRST, 43_container.md R90. -/
  | pngRemoveFirst
  /-- PNG_COUNT, 43_container.md R91. -/
  | pngCount
  /-- PNG_GET, 43_container.md R92. -/
  | pngGet
  /-- PNG_SERIALIZE, 43_container.md R93. -/
  | pngSerialize
  /-- PNG_SIGNATURE, 43_container.md R94. -/
  | pngSignature
deriving DecidableEq, Repr

/-- The registers `H_READ` names (30_encoding.md R50). -/
inductive HostReg where
  | status
  | arg
  | result
  | inLen
  | outLen
deriving DecidableEq, Repr

/-- What the outside world can do to the block between two commands: the transactions of 30_encoding.md R50, the read
of IN that 10_state.md R15 and 20_memory.md R39 give the host (log entry 4), and the reset input (70_reset_and_hazards.md R107). -/
inductive HostEvent where
  /-- `H_WRITE_IN(b)`. -/
  | writeIn (b : Bytes)
  /-- `H_WRITE_ARG(v)`. -/
  | writeArg (v : Word)
  /-- `H_CMD(op)`. -/
  | cmd (op : Byte)
  /-- `H_READ(r)`. -/
  | read (r : HostReg)
  /-- `H_READ_OUT()`. -/
  | readOut
  /-- A host read of IN. DEDUCED (log entry 4). -/
  | readIn
  /-- The reset input is asserted. -/
  | reset
deriving DecidableEq, Repr

/-- What a host read returned: an 8-bit register, a 32-bit register or a buffer's content. -/
inductive HostAnswer where
  | byte (v : Byte)
  | word (v : Word)
  | bytes (b : Bytes)
deriving DecidableEq, Repr

end Sys2Proof
end

