-- ==== Sys2Proof/WellFormed.lean ====
section
/-! DEFINITION. Which terms of the syntax the spec admits. A command word has no operand (30_encoding.md R44), so every
`Instr` is well-formed; the checks are on the parameters (00_scope.md R8) and on the host's transactions (30_encoding.md R50). -/

namespace Sys2Proof

/-- Every command is well-formed: there is no operand to constrain (30_encoding.md R44). -/
def Instr.wellFormed : Instr → Bool := fun _ => true

/-- 00_scope.md R8's bounds on the three parameters. -/
def Config.wellFormed (c : Config) : Bool := decide c.Valid

/-- `H_WRITE_IN(b)` exists only for `|b| ≤ MAX_IN` (30_encoding.md R50, 92_eei_decisions.md D29); every other
transaction is available at all times (60_exceptions.md R104). -/
def HostEvent.wellFormed (c : Config) : HostEvent → Bool
  | .writeIn b => decide (b.length ≤ c.maxIn)
  | .writeArg _ => true
  | .cmd _ => true
  | .read _ => true
  | .readOut => true
  | .readIn => true
  | .reset => true

end Sys2Proof
end

