-- ==== Sys2Proof/Decode.lean ====
section
/-! DEFINITION. The decoder of the command byte and, after it, the encoder, each written from 30_encoding.md R42: the
decoder from the F and N columns, the encoder from the opcode column. -/

namespace Sys2Proof

/-- Why bytes are not a command, by name. -/
inductive DecodeReject where
  /-- One of the 228 unassigned command bytes (30_encoding.md R43). -/
  | unassigned (op : Byte)
  /-- There is no byte at all. -/
  | noCommand
deriving DecidableEq, Repr

/-- The family field F, bits [7:4] of the command word (30_encoding.md R42). -/
def opFamily (op : Byte) : Nat := (op.extractLsb 7 4).toNat

/-- The function field N, bits [3:0] of the command word (30_encoding.md R42). -/
def opFunction (op : Byte) : Nat := (op.extractLsb 3 0).toNat

/-- The F and N columns of 30_encoding.md R42. -/
def instrOfFields : Nat → Nat → Option Instr
  | 0, 1 => some .crc32
  | 0, 2 => some .u32Dec
  | 0, 3 => some .u32Enc
  | 1, 0 => some .typeFromStr
  | 1, 1 => some .typeFromBytes
  | 1, 2 => some .typeRead
  | 1, 3 => some .typeIsValid
  | 1, 4 => some .typeIsCritical
  | 1, 5 => some .typeIsPublic
  | 1, 6 => some .typeIsReservedBitValid
  | 1, 7 => some .typeIsSafeToCopy
  | 2, 0 => some .chunkNew
  | 2, 1 => some .chunkParse
  | 2, 2 => some .chunkLength
  | 2, 3 => some .chunkType
  | 2, 4 => some .chunkData
  | 2, 5 => some .chunkCrc
  | 2, 6 => some .chunkDataAsString
  | 2, 7 => some .chunkSerialize
  | 3, 0 => some .pngClear
  | 3, 1 => some .pngParse
  | 3, 2 => some .pngAppend
  | 3, 3 => some .pngFind
  | 3, 4 => some .pngRemoveFirst
  | 3, 5 => some .pngCount
  | 3, 6 => some .pngGet
  | 3, 7 => some .pngSerialize
  | 3, 8 => some .pngSignature
  | _, _ => none

/-- The command a byte written to CMD issues; an unassigned byte is rejected by name (30_encoding.md R42, R43). -/
def decode (op : Byte) : Except DecodeReject Instr :=
  match instrOfFields (opFamily op) (opFunction op) with
  | some i => .ok i
  | none => .error (.unassigned op)

/-- The first command of a stream of command bytes, and the rest of the stream. Every command word is one byte long, with
no prefixes (30_encoding.md R44). -/
def decodeBytes : Bytes → Except DecodeReject (Instr × Bytes)
  | [] => .error .noCommand
  | op :: rest =>
    match decode op with
    | .ok i => .ok (i, rest)
    | .error r => .error r

/-- The opcode column of 30_encoding.md R42. -/
def encode : Instr → Byte
  | .crc32 => 0x01#8
  | .u32Dec => 0x02#8
  | .u32Enc => 0x03#8
  | .typeFromStr => 0x10#8
  | .typeFromBytes => 0x11#8
  | .typeRead => 0x12#8
  | .typeIsValid => 0x13#8
  | .typeIsCritical => 0x14#8
  | .typeIsPublic => 0x15#8
  | .typeIsReservedBitValid => 0x16#8
  | .typeIsSafeToCopy => 0x17#8
  | .chunkNew => 0x20#8
  | .chunkParse => 0x21#8
  | .chunkLength => 0x22#8
  | .chunkType => 0x23#8
  | .chunkData => 0x24#8
  | .chunkCrc => 0x25#8
  | .chunkDataAsString => 0x26#8
  | .chunkSerialize => 0x27#8
  | .pngClear => 0x30#8
  | .pngParse => 0x31#8
  | .pngAppend => 0x32#8
  | .pngFind => 0x33#8
  | .pngRemoveFirst => 0x34#8
  | .pngCount => 0x35#8
  | .pngGet => 0x36#8
  | .pngSerialize => 0x37#8
  | .pngSignature => 0x38#8

/-- The bytes of an opcode-table word of `k` bytes, the first byte of the stream in bits 7..0. -/
def tableBytes : Nat → Nat → Bytes
  | 0, _ => []
  | k + 1, w => BitVec.ofNat 8 w :: tableBytes k (w / 256)

/-- The command the decoder reads from an opcode-table word of `nbits` bits (every row of the table has 8). -/
def decodeTableWord (nbits w : Nat) : Option Instr :=
  match decodeBytes (tableBytes (nbits / 8) w) with
  | .ok (i, []) => some i
  | .ok (_, _ :: _) => none
  | .error _ => none

end Sys2Proof
end

