-- ==== Sys2Proof/Machine/State.lean ====
section
/-! DEFINITION. Everything the spec gives the block to hold (10_state.md R15), as plain data; the reasons a step can stop;
the state after reset (10_state.md R31). -/

namespace Sys2Proof.Machine

/-- A chunk type code: four bytes in stream order (30_encoding.md R49). -/
structure TypeCode where
  b0 : Byte
  b1 : Byte
  b2 : Byte
  b3 : Byte
deriving DecidableEq, Repr

/-- A chunk record (10_state.md R24). -/
structure Chunk where
  length : Word
  type   : TypeCode
  data   : Bytes
  crc    : Word
deriving DecidableEq, Repr

/-- The type register TR: a valid bit and four bytes (10_state.md R22). -/
structure TypeReg where
  valid : Bool
  bytes : TypeCode
deriving DecidableEq, Repr

/-- The chunk register CR: a valid bit and one chunk record (10_state.md R23). -/
structure ChunkReg where
  valid : Bool
  chunk : Chunk
deriving DecidableEq, Repr

/-- The block, its parameters and the host beside it.

`status` to `seq` are the block's state, exactly 10_state.md R15 less the constants (SIG and CRC_TABLE, in
Machine/Ops.lean) and CMD, which "holds no value between commands" (R16) and so stands in the host's event only.
A buffer is its content `IN[0..IN_LEN)`; the length registers IN_LEN and OUT_LEN are read off it (log entry 2).

`cfg`, `pending` and `answers` are the MODEL's own fields (log entries 1 and 3): the parameters, the host events still to
come (oldest first), and what the host's reads have returned (oldest first). -/
structure State where
  cfg     : Config
  status  : Byte
  arg     : Word
  result  : Word
  input   : Bytes
  output  : Bytes
  tr      : TypeReg
  cr      : ChunkReg
  seq     : List Chunk
  pending : List HostEvent
  answers : List HostAnswer
deriving DecidableEq, Repr

/-- IN_LEN, 32 bits (10_state.md R20). -/
def State.inLen (s : State) : Word := BitVec.ofNat 32 s.input.length

/-- OUT_LEN, 32 bits (10_state.md R21). -/
def State.outLen (s : State) : Word := BitVec.ofNat 32 s.output.length

/-- The block has no trap, no panic and no stuck state (60_exceptions.md R102, 93_implementation_defined.md "No behaviour
in the block is stuck"): every error is a STATUS code of a next state, so there is no fault to name. -/
inductive Fault where
deriving DecidableEq, Repr

/-- Why a step has no meaning. -/
inductive Refusal where
  /-- Raised by no meaning: an instruction of the table without a meaning yet (none is left). Safe. -/
  | notModelled (mnemonic : String)
  /-- Raised by `hostWriteIn` alone, for a host write of more than MAX_IN bytes to IN: "no such transaction exists in the
  model. A host that attempts it is outside the model" (93_implementation_defined.md U9, 30_encoding.md R50). Safe. -/
  | inputOverCapacity
deriving DecidableEq, Repr

/-- The error kinds of 60_exceptions.md R97 (every row but OK). -/
inductive ErrorKind where
  | invalidSignature
  | invalidTypeCode
  | truncatedBuffer
  | checksumMismatch
  | invalidUtf8
  | chunkNotFound
  | illegalCommand
  | operandInvalid
  | indexOutOfRange
  | capacityExceeded
deriving DecidableEq, Repr

/-- Four zero bytes. DESIGN CHOICE (log entry 5): what TR's bytes and CR's type hold at reset, where 10_state.md R31 says
"unspecified and unreadable". -/
def TypeCode.zero : TypeCode := ⟨0x00#8, 0x00#8, 0x00#8, 0x00#8⟩

/-- DESIGN CHOICE (log entry 5): the record CR holds at reset, behind its cleared valid bit. -/
def Chunk.zero : Chunk := ⟨0x00000000#32, TypeCode.zero, [], 0x00000000#32⟩

/-- The block right after reset (10_state.md R31, 70_reset_and_hazards.md R107), for given parameters. -/
def State.resetOf (c : Config) : State where
  cfg     := c
  status  := 0x00#8
  arg     := 0x00000000#32
  result  := 0x00000000#32
  input   := []
  output  := []
  tr      := ⟨false, TypeCode.zero⟩
  cr      := ⟨false, Chunk.zero⟩
  seq     := []
  pending := []
  answers := []

/-- The block right after reset with the parameters of 95_test_vectors.md (log entry 1) and no host event to come. -/
def State.reset : State := State.resetOf Config.vectors

end Sys2Proof.Machine
end

