-- ==== Sys2Proof/Machine/Flags.lean ====
section
/-! DEFINITION. Everything flag-like: STATUS codes, the encoding of booleans in RESULT, and the property bits of a type
code. The block has no other condition flags (10_state.md R28). -/

namespace Sys2Proof.Machine

/-- The code of the row OK of 60_exceptions.md R97. -/
def statusOk : Byte := 0x00#8

/-- The code column of 60_exceptions.md R97. -/
def ErrorKind.code : ErrorKind → Byte
  | .invalidSignature => 0x01#8
  | .invalidTypeCode => 0x02#8
  | .truncatedBuffer => 0x03#8
  | .checksumMismatch => 0x04#8
  | .invalidUtf8 => 0x05#8
  | .chunkNotFound => 0x06#8
  | .illegalCommand => 0x10#8
  | .operandInvalid => 0x11#8
  | .indexOutOfRange => 0x12#8
  | .capacityExceeded => 0x13#8

/-- A boolean in RESULT: 1 for true, 0 for false (10_state.md R19). -/
def boolWord (b : Bool) : Word := if b then 1#32 else 0#32

/-- Bit 5 (0x20) of a type byte (30_encoding.md R49). -/
def propertyBit (b : Byte) : Bool := b.getLsbD 5

/-- Byte 0, bit 5 clear: critical (41_chunk_type.md R66). -/
def TypeCode.isCritical (t : TypeCode) : Bool := !propertyBit t.b0

/-- Byte 1, bit 5 clear: public (41_chunk_type.md R67). -/
def TypeCode.isPublic (t : TypeCode) : Bool := !propertyBit t.b1

/-- Byte 2, bit 5 clear: the reserved bit is valid (41_chunk_type.md R68). -/
def TypeCode.isReservedBitValid (t : TypeCode) : Bool := !propertyBit t.b2

/-- Byte 3, bit 5 SET: safe to copy, the opposite sense of the other three (41_chunk_type.md R69). -/
def TypeCode.isSafeToCopy (t : TypeCode) : Bool := propertyBit t.b3

/-- `0x41..0x5A` or `0x61..0x7A` (41_chunk_type.md R61). -/
def isLetter (b : Byte) : Bool :=
  (0x41#8 ≤ b && b ≤ 0x5A#8) || (0x61#8 ≤ b && b ≤ 0x7A#8)

/-- `allLetters(t)` (41_chunk_type.md R61). -/
def TypeCode.allLetters (t : TypeCode) : Bool :=
  isLetter t.b0 && isLetter t.b1 && isLetter t.b2 && isLetter t.b3

/-- Full validity: four letters and a clear reserved bit (41_chunk_type.md R65). -/
def TypeCode.isValid (t : TypeCode) : Bool := t.allLetters && t.isReservedBitValid

end Sys2Proof.Machine
end

