-- ==== Sys2Proof/Machine/Ops.lean ====
section
/-! DEFINITION. The named operations over the block's registers, buffers and store; ending a command with an error or with
success; the two ROMs and the functions every unit shares (the checksum and the big-endian codec). -/

namespace Sys2Proof.Machine

/-! ## Register, buffer and store writes (`X <- v`, 00_scope.md R12) -/

/-- `STATUS <- v` (10_state.md R17). -/
def State.setStatus (v : Byte) (s : State) : State := { s with status := v }

/-- `ARG <- v`, by the host only (10_state.md R18). -/
def State.setArg (v : Word) (s : State) : State := { s with arg := v }

/-- `RESULT <- v` (10_state.md R19). -/
def State.setResult (v : Word) (s : State) : State := { s with result := v }

/-- `IN[0..|b|) <- b, IN_LEN <- |b|`, by the host only (10_state.md R20). -/
def State.setInput (b : Bytes) (s : State) : State := { s with input := b }

/-- `MemWrite(0, |v|, v)`: `v` becomes the whole content of OUT and OUT_LEN its length (00_scope.md R12, 10_state.md R21). -/
def State.memWrite (v : Bytes) (s : State) : State := { s with output := v }

/-- `TR.bytes <- t; TR.valid <- 1` (10_state.md R22). -/
def State.loadType (t : TypeCode) (s : State) : State := { s with tr := ⟨true, t⟩ }

/-- `CR <- c; CR.valid <- 1` (10_state.md R23); a value copy (R30). -/
def State.loadChunk (c : Chunk) (s : State) : State := { s with cr := ⟨true, c⟩ }

/-- `SEQ <- l` (10_state.md R25). -/
def State.setSeq (l : List Chunk) (s : State) : State := { s with seq := l }

/-- The host events still to come (log entry 3). -/
def State.setPending (l : List HostEvent) (s : State) : State := { s with pending := l }

/-- A host read returns `a`: the newest answer stands last (log entry 3). -/
def State.answer (a : HostAnswer) (s : State) : State := { s with answers := s.answers ++ [a] }

/-! ## Ending a command -/

/-- `raise E`: `STATUS <- code(E)` and no other state change (60_exceptions.md R98). This is all the block has in the place of
taking an exception; there is no trap entry, no saved state and no return (R102). -/
def State.raise (e : ErrorKind) (s : State) : State := s.setStatus e.code

/-- A command ends in error `e`, and the next command runs normally (60_exceptions.md R98, R102). -/
def fail (e : ErrorKind) (s : State) : Host.Outcome State Fault Refusal := .next (s.raise e)

/-- A command completes: `STATUS <- 0x00`, so STATUS is not sticky (60_exceptions.md R99). -/
def done (s : State) : Host.Outcome State Fault Refusal := .next (s.setStatus statusOk)

/-- A byte result of declared size `n` goes to OUT if it fits: CapacityExceeded when `n > MAX_OUT`, and OUT is then
unchanged (10_state.md R21, 92_eei_decisions.md D8). The comparison is exact (D31). -/
def emit (n : Nat) (v : Bytes) (s : State) : Host.Outcome State Fault Refusal :=
  if s.cfg.maxOut < n then fail .capacityExceeded s else done (s.memWrite v)

/-! ## ROM (20_memory.md R33) -/

/-- SIG (10_state.md R26). -/
def sig : Bytes := [0x89#8, 0x50#8, 0x4E#8, 0x47#8, 0x0D#8, 0x0A#8, 0x1A#8, 0x0A#8]

/-- One bit of the checksum: shift right, and XOR the reflected polynomial if the bit shifted out was 1 (40_crc_u32.md R53). -/
def crcBit (c : Word) : Word :=
  if c.getLsbD 0 then (c >>> 1) ^^^ 0xEDB88320#32 else c >>> 1

/-- `k` bits of the checksum. -/
def crcBits : Nat → Word → Word
  | 0, c => c
  | k + 1, c => crcBits k (crcBit c)

/-- CRC_TABLE: `T[n]` for every byte `n` (40_crc_u32.md R55, 10_state.md R27). A constant from reset (92_eei_decisions.md D28). -/
def crcTable (n : Byte) : Word := crcBits 8 (n.zeroExtend 32)

/-! ## The checksum (40_crc_u32.md) -/

/-- One byte of the bitwise form: XOR the byte in, then 8 bits, least significant first (R53). -/
def crcByte (c : Word) (b : Byte) : Word := crcBits 8 (c ^^^ b.zeroExtend 32)

/-- `crc32(M)` (R53). -/
def crc32 (m : Bytes) : Word := m.foldl crcByte 0xFFFFFFFF#32 ^^^ 0xFFFFFFFF#32

/-- One byte of the table-driven form: `T[(c XOR zext_32(b))[7:0]] XOR (c >> 8)` (R55). -/
def crcTableByte (c : Word) (b : Byte) : Word :=
  crcTable ((c ^^^ b.zeroExtend 32).extractLsb' 0 8) ^^^ (c >>> 8)

/-- `crc32_table(M)` (R55). The commands use `crc32`; 10_state.md R27 says the two give equal results. -/
def crc32Table (m : Bytes) : Word := m.foldl crcTableByte 0xFFFFFFFF#32 ^^^ 0xFFFFFFFF#32

/-! ## The big-endian codec (40_crc_u32.md) -/

/-- `be32(s)`, from the first four bytes; `none` for `|s| < 4`, where R56 leaves it undefined. -/
def be32 : Bytes → Option Word
  | b0 :: b1 :: b2 :: b3 :: _ =>
    some ((b0.zeroExtend 32 <<< 24) ||| (b1.zeroExtend 32 <<< 16) ||| (b2.zeroExtend 32 <<< 8) ||| b3.zeroExtend 32)
  | _ => none

/-- `enc32(v)`, the most significant byte first (R57, 20_memory.md R34). -/
def enc32 (v : Word) : Bytes :=
  [v.extractLsb' 24 8, v.extractLsb' 16 8, v.extractLsb' 8 8, v.extractLsb' 0 8]

/-! ## The capacity invariant of the buffers and the store -/

/-- `0 ≤ IN_LEN ≤ MAX_IN`, `0 ≤ OUT_LEN ≤ MAX_OUT`, `0 ≤ |SEQ| ≤ MAX_CHUNKS` (10_state.md R20, R21, R25). A buffer's content
is a dense byte sequence from index 0, so equal contents are equal lists and this is the whole canonical form (log entry 2). -/
def Memory.wf (s : State) : Bool :=
  decide (s.input.length ≤ s.cfg.maxIn) && decide (s.output.length ≤ s.cfg.maxOut) &&
    decide (s.seq.length ≤ s.cfg.maxChunks)

end Sys2Proof.Machine
end

