-- ==== Sys2Proof/Machine/Operands.lean ====
section
/-! DEFINITION. Every operand form: byte sequences from IN, the type in TR, the chunk in CR, the lookup key
(30_encoding.md R44). ARG and SEQ are read as the fields they are. -/

namespace Sys2Proof.Machine

/-- `s[a..b)` (00_scope.md R11). -/
def slice (b : Bytes) (lo hi : Nat) : Bytes := (b.drop lo).take (hi - lo)

/-- `MemRead(a, n)`: `IN[a..a+n)`. Every rule checks `a + n ≤ IN_LEN` before it reads (00_scope.md R12). -/
def State.memRead (s : State) (a n : Nat) : Bytes := slice s.input a (a + n)

/-- `MemRead(0, IN_LEN)`: the whole content of IN. -/
def State.memReadAll (s : State) : Bytes := s.memRead 0 s.input.length

/-- The byte at index `a` of a buffer's content; no byte stands at or above the length (10_state.md R20, R21). -/
def byteAt (b : Bytes) (a : Nat) : Option Byte := b[a]?

/-- The four bytes of a type code, in stream order (30_encoding.md R46). -/
def TypeCode.toBytes (t : TypeCode) : Bytes := [t.b0, t.b1, t.b2, t.b3]

/-- A type code from exactly four bytes. -/
def typeOfBytes : Bytes → Option TypeCode
  | [b0, b1, b2, b3] => some ⟨b0, b1, b2, b3⟩
  | _ => none

/-- A command that needs TR raises OperandInvalid, before anything else, while TR.valid = 0 (10_state.md R22,
60_exceptions.md R100). -/
def withType (s : State) (k : TypeCode → Host.Outcome State Fault Refusal) : Host.Outcome State Fault Refusal :=
  if s.tr.valid then k s.tr.bytes else fail .operandInvalid s

/-- A command that needs CR raises OperandInvalid, before anything else, while CR.valid = 0 (10_state.md R23,
60_exceptions.md R100). -/
def withChunk (s : State) (k : Chunk → Host.Outcome State Fault Refusal) : Host.Outcome State Fault Refusal :=
  if s.cr.valid then k s.cr.chunk else fail .operandInvalid s

/-- `keyMatch(k, t)`: four bytes, equal one by one, case-sensitive (41_chunk_type.md R70). -/
def keyMatch (k : Bytes) (t : TypeCode) : Bool :=
  match k with
  | [k0, k1, k2, k3] => k0 == t.b0 && k1 == t.b1 && k2 == t.b2 && k3 == t.b3
  | _ => false

end Sys2Proof.Machine
end

