-- ==== Sys2Proof/Machine/Frame.lean ====
section
/-! DEFINITION. The wire format's functions: a chunk frame parsed and encoded (42_chunk.md R71, R80), well-formed UTF-8
(R79), a container stream parsed and encoded (43_container.md R84, R85, R93), first-match removal (R90). -/

namespace Sys2Proof.Machine

/-- `FrameParse(B)`, step by step as 42_chunk.md R71 numbers them; all sizes are exact naturals (92_eei_decisions.md D31).
The two last alternatives stand for a field with fewer bytes than it declares, which step 1 and step 4 have ruled out. -/
def frameParse (b : Bytes) : Except ErrorKind (Chunk × Nat) :=
  if b.length < 12 then .error .truncatedBuffer
  else
    match be32 (slice b 0 4), typeOfBytes (slice b 4 8) with
    | some l, some t =>
      if !t.allLetters then .error .invalidTypeCode
      else if b.length < 12 + l.toNat then .error .truncatedBuffer
      else
        let d := slice b 8 (8 + l.toNat)
        match be32 (slice b (8 + l.toNat) (12 + l.toNat)) with
        | some c => if crc32 (t.toBytes ++ d) ≠ c then .error .checksumMismatch else .ok (⟨l, t, d, c⟩, 12 + l.toNat)
        | none => .error .truncatedBuffer
    | _, _ => .error .truncatedBuffer

/-- `Frame(c)`: the stored crc is emitted as it is, not recomputed (42_chunk.md R80). -/
def frame (c : Chunk) : Bytes := enc32 c.length ++ c.type.toBytes ++ c.data ++ enc32 c.crc

/-- The record CHUNK_NEW builds (42_chunk.md R72). -/
def newChunk (t : TypeCode) (d : Bytes) : Chunk := ⟨BitVec.ofNat 32 d.length, t, d, crc32 (t.toBytes ++ d)⟩

/-- The rows of 42_chunk.md R79: for each form, the range of each of its bytes. -/
def utf8Rows : List (List (Byte × Byte)) :=
  [[(0x00#8, 0x7F#8)],
   [(0xC2#8, 0xDF#8), (0x80#8, 0xBF#8)],
   [(0xE0#8, 0xE0#8), (0xA0#8, 0xBF#8), (0x80#8, 0xBF#8)],
   [(0xE1#8, 0xEC#8), (0x80#8, 0xBF#8), (0x80#8, 0xBF#8)],
   [(0xED#8, 0xED#8), (0x80#8, 0x9F#8), (0x80#8, 0xBF#8)],
   [(0xEE#8, 0xEF#8), (0x80#8, 0xBF#8), (0x80#8, 0xBF#8)],
   [(0xF0#8, 0xF0#8), (0x90#8, 0xBF#8), (0x80#8, 0xBF#8), (0x80#8, 0xBF#8)],
   [(0xF1#8, 0xF3#8), (0x80#8, 0xBF#8), (0x80#8, 0xBF#8), (0x80#8, 0xBF#8)],
   [(0xF4#8, 0xF4#8), (0x80#8, 0x8F#8), (0x80#8, 0xBF#8), (0x80#8, 0xBF#8)]]

/-- What is left of `d` after one byte for each range of the row; `none` if a byte is missing or out of its range. -/
def afterRow : List (Byte × Byte) → Bytes → Option Bytes
  | [], d => some d
  | (lo, hi) :: row, b :: d => if lo ≤ b && b ≤ hi then afterRow row d else none
  | _ :: _, [] => none

/-- What is left of `d` after one well-formed sequence at its front. -/
def afterUtf8Seq (d : Bytes) : Option Bytes := utf8Rows.findSome? (afterRow · d)

/-- At most `fuel` sequences, with nothing left over. Each takes at least one byte, so `fuel = |d|` is enough. -/
def utf8Sequences : Nat → Bytes → Bool
  | _, [] => true
  | 0, _ :: _ => false
  | fuel + 1, b :: d =>
    match afterUtf8Seq (b :: d) with
    | some rest => utf8Sequences fuel rest
    | none => false

/-- `utf8WellFormed(d)` (42_chunk.md R79). -/
def utf8WellFormed (d : Bytes) : Bool := utf8Sequences d.length d

/-- `B` starts with the signature (43_container.md R84). -/
def startsWithSig (b : Bytes) : Bool := decide (8 ≤ b.length) && slice b 0 8 == sig

/-- The loop of 43_container.md R85 on the bytes from `pos` on, at most `fuel` passes. Each pass takes at least 12 bytes, so
`fuel = |B|` is enough; the first failure in stream order is the result and the list is discarded. -/
def framesParse : Nat → Bytes → Except ErrorKind (List Chunk)
  | _, [] => .ok []
  | 0, _ :: _ => .error .truncatedBuffer
  | fuel + 1, b :: d =>
    match frameParse (b :: d) with
    | .error e => .error e
    | .ok (c, n) =>
      match framesParse fuel ((b :: d).drop n) with
      | .error e => .error e
      | .ok l => .ok (c :: l)

/-- `ContainerParse(B)` (43_container.md R85). -/
def containerParse (b : Bytes) : Except ErrorKind (List Chunk) :=
  if !startsWithSig b then .error .invalidSignature else framesParse b.length (b.drop 8)

/-- The stream of 43_container.md R93: SIG, then each record's frame in sequence order. -/
def containerStream (l : List Chunk) : Bytes := sig ++ l.flatMap frame

/-- SEQ without its first record that matches the key; `none` when no record matches (43_container.md R90). -/
def removeFirst (k : Bytes) : List Chunk → Option (List Chunk)
  | [] => none
  | c :: l => if keyMatch k c.type then some l else (removeFirst k l).map (c :: ·)

end Sys2Proof.Machine
end

