-- ==== Sys2Proof/Machine/ChunkType.lean ====
section
/-! DEFINITION. Family 1: the two constructors of TR, its read-out and the five property tests (41_chunk_type.md). -/

namespace Sys2Proof.Machine

/-- The pseudocode R62 and R63 share: exactly four bytes, each a letter, else InvalidTypeCode; the reserved bit is not
enforced. -/
def typeFromInput (s : State) : Host.Outcome State Fault Refusal :=
  if s.input.length ≠ 4 then fail .invalidTypeCode s
  else
    match typeOfBytes (s.memRead 0 4) with
    | some t => if t.allLetters then done (s.loadType t) else fail .invalidTypeCode s
    | none => fail .invalidTypeCode s

/-- A property test: `RESULT <- p(TR.bytes) ? 1 : 0` (41_chunk_type.md §4). -/
def typeTest (p : TypeCode → Bool) (s : State) : Host.Outcome State Fault Refusal :=
  withType s fun t => done (s.setResult (boolWord (p t)))

/-- TYPE_FROM_STR (R62). -/
def execTypeFromStr (s : State) : Host.Outcome State Fault Refusal := typeFromInput s

/-- TYPE_FROM_BYTES (R63). -/
def execTypeFromBytes (s : State) : Host.Outcome State Fault Refusal := typeFromInput s

/-- TYPE_READ (R64). -/
def execTypeRead (s : State) : Host.Outcome State Fault Refusal :=
  withType s fun t => done (s.memWrite t.toBytes)

/-- TYPE_IS_VALID (R65). -/
def execTypeIsValid (s : State) : Host.Outcome State Fault Refusal := typeTest TypeCode.isValid s

/-- TYPE_IS_CRITICAL (R66). -/
def execTypeIsCritical (s : State) : Host.Outcome State Fault Refusal := typeTest TypeCode.isCritical s

/-- TYPE_IS_PUBLIC (R67). -/
def execTypeIsPublic (s : State) : Host.Outcome State Fault Refusal := typeTest TypeCode.isPublic s

/-- TYPE_IS_RESERVED_BIT_VALID (R68). -/
def execTypeIsReservedBitValid (s : State) : Host.Outcome State Fault Refusal := typeTest TypeCode.isReservedBitValid s

/-- TYPE_IS_SAFE_TO_COPY (R69). -/
def execTypeIsSafeToCopy (s : State) : Host.Outcome State Fault Refusal := typeTest TypeCode.isSafeToCopy s

end Sys2Proof.Machine
end

