-- ==== Sys2Proof/Machine/ChunkUnit.lean ====
section
/-! DEFINITION. Family 2: the commands that build, parse, read and serialize the chunk register CR (42_chunk.md). -/

namespace Sys2Proof.Machine

/-- CHUNK_NEW (R72). -/
def execChunkNew (s : State) : Host.Outcome State Fault Refusal :=
  withType s fun t => done (s.loadChunk (newChunk t s.memReadAll))

/-- CHUNK_PARSE (R73): RESULT is the number of bytes consumed; trailing bytes are ignored. -/
def execChunkParse (s : State) : Host.Outcome State Fault Refusal :=
  match frameParse s.memReadAll with
  | .ok (c, n) => done ((s.loadChunk c).setResult (BitVec.ofNat 32 n))
  | .error e => fail e s

/-- CHUNK_LENGTH (R74). -/
def execChunkLength (s : State) : Host.Outcome State Fault Refusal :=
  withChunk s fun c => done (s.setResult c.length)

/-- CHUNK_TYPE (R75): the type goes to TR and to OUT. -/
def execChunkType (s : State) : Host.Outcome State Fault Refusal :=
  withChunk s fun c => done ((s.loadType c.type).memWrite c.type.toBytes)

/-- CHUNK_DATA (R76). -/
def execChunkData (s : State) : Host.Outcome State Fault Refusal :=
  withChunk s fun c => emit c.length.toNat c.data s

/-- CHUNK_CRC (R77). -/
def execChunkCrc (s : State) : Host.Outcome State Fault Refusal :=
  withChunk s fun c => done (s.setResult c.crc)

/-- CHUNK_DATA_AS_STRING (R78): InvalidUtf8 comes before CapacityExceeded. -/
def execChunkDataAsString (s : State) : Host.Outcome State Fault Refusal :=
  withChunk s fun c => if utf8WellFormed c.data then emit c.length.toNat c.data s else fail .invalidUtf8 s

/-- CHUNK_SERIALIZE (R81). -/
def execChunkSerialize (s : State) : Host.Outcome State Fault Refusal :=
  withChunk s fun c => emit (12 + c.length.toNat) (frame c) s

end Sys2Proof.Machine
end

