-- ==== Sys2Proof/Machine/Container.lean ====
section
/-! DEFINITION. Family 3: the commands on the chunk sequence store SEQ (43_container.md). -/

namespace Sys2Proof.Machine

/-- PNG_CLEAR (R86). -/
def execPngClear (s : State) : Host.Outcome State Fault Refusal := done (s.setSeq [])

/-- PNG_PARSE (R87): all or nothing; capacity is checked only after the whole buffer has parsed. -/
def execPngParse (s : State) : Host.Outcome State Fault Refusal :=
  match containerParse s.memReadAll with
  | .error e => fail e s
  | .ok l =>
    if s.cfg.maxChunks < l.length then fail .capacityExceeded s
    else done ((s.setSeq l).setResult (BitVec.ofNat 32 l.length))

/-- PNG_APPEND (R88): a copy of CR at the tail; CR keeps its value and its valid bit. -/
def execPngAppend (s : State) : Host.Outcome State Fault Refusal :=
  withChunk s fun c =>
    if s.seq.length = s.cfg.maxChunks then fail .capacityExceeded s else done (s.setSeq (s.seq ++ [c]))

/-- PNG_FIND (R89): the first match goes to CR; "nothing found" is a result, not an error. -/
def execPngFind (s : State) : Host.Outcome State Fault Refusal :=
  match s.seq.find? (fun c => keyMatch s.memReadAll c.type) with
  | some c => done ((s.loadChunk c).setResult (boolWord true))
  | none => done (s.setResult (boolWord false))

/-- PNG_REMOVE_FIRST (R90). -/
def execPngRemoveFirst (s : State) : Host.Outcome State Fault Refusal :=
  match removeFirst s.memReadAll s.seq with
  | some l => done (s.setSeq l)
  | none => fail .chunkNotFound s

/-- PNG_COUNT (R91). -/
def execPngCount (s : State) : Host.Outcome State Fault Refusal :=
  done (s.setResult (BitVec.ofNat 32 s.seq.length))

/-- PNG_GET (R92): ARG is an unsigned index with no scaling. -/
def execPngGet (s : State) : Host.Outcome State Fault Refusal :=
  match s.seq[s.arg.toNat]? with
  | some c => done (s.loadChunk c)
  | none => fail .indexOutOfRange s

/-- PNG_SERIALIZE (R93). -/
def execPngSerialize (s : State) : Host.Outcome State Fault Refusal :=
  emit (containerStream s.seq).length (containerStream s.seq) s

/-- PNG_SIGNATURE (R94). -/
def execPngSignature (s : State) : Host.Outcome State Fault Refusal := done (s.memWrite sig)

end Sys2Proof.Machine
end

