-- ==== Sys2Proof/Machine/CrcU32.lean ====
section
/-! DEFINITION. Family 0: CRC32, U32_DEC, U32_ENC (40_crc_u32.md). -/

namespace Sys2Proof.Machine

/-- CRC32 (R58): `RESULT <- crc32(MemRead(0, IN_LEN))`. -/
def execCrc32 (s : State) : Host.Outcome State Fault Refusal := done (s.setResult (crc32 s.memReadAll))

/-- U32_DEC (R59): TruncatedBuffer when IN_LEN < 4, else `RESULT <- be32(MemRead(0, 4))`. -/
def execU32Dec (s : State) : Host.Outcome State Fault Refusal :=
  if s.input.length < 4 then fail .truncatedBuffer s
  else
    match be32 (s.memRead 0 4) with
    | some v => done (s.setResult v)
    | none => fail .truncatedBuffer s

/-- U32_ENC (R60): `MemWrite(0, 4, enc32(ARG))`; the output always fits. -/
def execU32Enc (s : State) : Host.Outcome State Fault Refusal := done (s.memWrite (enc32 s.arg))

end Sys2Proof.Machine
end

