-- ==== Sys2Proof/Machine/Dispatch.lean ====
section
/-! DEFINITION. Each command's meaning, one arm per row of the opcode table (30_encoding.md R42). -/

namespace Sys2Proof.Machine

def exec (i : Instr) (s : State) : Host.Outcome State Fault Refusal :=
  match i with
  | .crc32 => Sys2Proof.Machine.execCrc32 s
  | .u32Dec => Sys2Proof.Machine.execU32Dec s
  | .u32Enc => Sys2Proof.Machine.execU32Enc s
  | .typeFromStr => Sys2Proof.Machine.execTypeFromStr s
  | .typeFromBytes => Sys2Proof.Machine.execTypeFromBytes s
  | .typeRead => Sys2Proof.Machine.execTypeRead s
  | .typeIsValid => Sys2Proof.Machine.execTypeIsValid s
  | .typeIsCritical => Sys2Proof.Machine.execTypeIsCritical s
  | .typeIsPublic => Sys2Proof.Machine.execTypeIsPublic s
  | .typeIsReservedBitValid => Sys2Proof.Machine.execTypeIsReservedBitValid s
  | .typeIsSafeToCopy => Sys2Proof.Machine.execTypeIsSafeToCopy s
  | .chunkNew => Sys2Proof.Machine.execChunkNew s
  | .chunkParse => Sys2Proof.Machine.execChunkParse s
  | .chunkLength => Sys2Proof.Machine.execChunkLength s
  | .chunkType => Sys2Proof.Machine.execChunkType s
  | .chunkData => Sys2Proof.Machine.execChunkData s
  | .chunkCrc => Sys2Proof.Machine.execChunkCrc s
  | .chunkDataAsString => Sys2Proof.Machine.execChunkDataAsString s
  | .chunkSerialize => Sys2Proof.Machine.execChunkSerialize s
  | .pngClear => Sys2Proof.Machine.execPngClear s
  | .pngParse => Sys2Proof.Machine.execPngParse s
  | .pngAppend => Sys2Proof.Machine.execPngAppend s
  | .pngFind => Sys2Proof.Machine.execPngFind s
  | .pngRemoveFirst => Sys2Proof.Machine.execPngRemoveFirst s
  | .pngCount => Sys2Proof.Machine.execPngCount s
  | .pngGet => Sys2Proof.Machine.execPngGet s
  | .pngSerialize => Sys2Proof.Machine.execPngSerialize s
  | .pngSignature => Sys2Proof.Machine.execPngSignature s

end Sys2Proof.Machine
end

