-- ==== Sys2Proof/Machine/Transactions.lean ====
section
/-! DEFINITION. What each host event does (30_encoding.md R50, 70_reset_and_hazards.md R107). Each is one atomic step
(20_memory.md R38). -/

namespace Sys2Proof.Machine

/-- `H_WRITE_IN(b)`: a write of more than MAX_IN bytes "does not exist as a transaction" (92_eei_decisions.md D29) and is
refused. -/
def hostWriteIn (b : Bytes) (s : State) : Host.Outcome State Fault Refusal :=
  if (HostEvent.writeIn b).wellFormed s.cfg then .next (s.setInput b) else .refused .inputOverCapacity

/-- `H_WRITE_ARG(v)`. -/
def hostWriteArg (v : Word) (s : State) : Host.Outcome State Fault Refusal := .next (s.setArg v)

/-- `H_CMD(op)`: an assigned opcode runs its command; an unassigned one raises IllegalCommand and changes nothing else
(30_encoding.md R43). -/
def hostCmd (op : Byte) (s : State) : Host.Outcome State Fault Refusal :=
  match decode op with
  | .ok i => exec i s
  | .error _ => fail .illegalCommand s

/-- The value of a register the host reads. -/
def hostReg (r : HostReg) (s : State) : HostAnswer :=
  match r with
  | .status => .byte s.status
  | .arg => .word s.arg
  | .result => .word s.result
  | .inLen => .word s.inLen
  | .outLen => .word s.outLen

/-- `H_READ(r)`: no state of the block changes (20_memory.md R39). -/
def hostRead (r : HostReg) (s : State) : Host.Outcome State Fault Refusal := .next (s.answer (hostReg r s))

/-- `H_READ_OUT()`: `OUT[0..OUT_LEN)`; no state of the block changes. -/
def hostReadOut (s : State) : Host.Outcome State Fault Refusal := .next (s.answer (.bytes s.output))

/-- A host read of IN: `IN[0..IN_LEN)`; no state of the block changes (20_memory.md R39, log entry 4). -/
def hostReadIn (s : State) : Host.Outcome State Fault Refusal := .next (s.answer (.bytes s.input))

/-- The reset input: every piece of the block's state takes its reset value, and the host beside the block is untouched
(70_reset_and_hazards.md R107). -/
def hostReset (s : State) : Host.Outcome State Fault Refusal :=
  .next { State.resetOf s.cfg with pending := s.pending, answers := s.answers }

/-- One host event. -/
def hostEvent (e : HostEvent) (s : State) : Host.Outcome State Fault Refusal :=
  match e with
  | .writeIn b => hostWriteIn b s
  | .writeArg v => hostWriteArg v s
  | .cmd op => hostCmd op s
  | .read r => hostRead r s
  | .readOut => hostReadOut s
  | .readIn => hostReadIn s
  | .reset => hostReset s

/-- The oldest host event not yet done takes effect. With none to come nothing happens: the block has no background work
(60_exceptions.md R103; log entry 3). -/
def takeEvent (s : State) : Host.Outcome State Fault Refusal :=
  match s.pending with
  | [] => .next s
  | e :: rest => hostEvent e (s.setPending rest)

/-- The command byte of an opcode-table word of `nbits` bits stands as the very next host event (log entry 3). -/
def placeCommand (nbits w : Nat) (s : State) : State :=
  s.setPending (HostEvent.cmd (BitVec.ofNat 8 (w % 2 ^ nbits)) :: s.pending)

end Sys2Proof.Machine
end

