-- ==== Sys2Proof/Machine/Step.lean ====
section
/-! DEFINITION. One step of the machine. The block fetches no instructions (20_memory.md R41): a step is the next host
event, in the order the host issues them (R40). -/

namespace Sys2Proof.Machine

/-- One host event, or nothing when none is to come. -/
def step (s : State) : Host.Outcome State Fault Refusal := takeEvent s

/-- `s` with the command byte of an opcode-table word of `nbits` bits as the very next host event. -/
def State.withFetchWord (s : State) (nbits w : Nat) : State := placeCommand nbits w s

end Sys2Proof.Machine
end

