-- ==== Sys2Proof/Machine/Assembly.lean ====
section
/-! DEFINITION. The host-program syntax of 30_encoding.md R51: one line of text to at most one host event, a program to the
host events it stands for, and a listing line of a command. What R51 leaves open of the text is log entry 6. -/

namespace Sys2Proof.Machine

/-- The mnemonic column of 30_encoding.md R42. -/
def mnemonic : Instr → String
  | .crc32 => "CRC32"
  | .u32Dec => "U32_DEC"
  | .u32Enc => "U32_ENC"
  | .typeFromStr => "TYPE_FROM_STR"
  | .typeFromBytes => "TYPE_FROM_BYTES"
  | .typeRead => "TYPE_READ"
  | .typeIsValid => "TYPE_IS_VALID"
  | .typeIsCritical => "TYPE_IS_CRITICAL"
  | .typeIsPublic => "TYPE_IS_PUBLIC"
  | .typeIsReservedBitValid => "TYPE_IS_RESERVED_BIT_VALID"
  | .typeIsSafeToCopy => "TYPE_IS_SAFE_TO_COPY"
  | .chunkNew => "CHUNK_NEW"
  | .chunkParse => "CHUNK_PARSE"
  | .chunkLength => "CHUNK_LENGTH"
  | .chunkType => "CHUNK_TYPE"
  | .chunkData => "CHUNK_DATA"
  | .chunkCrc => "CHUNK_CRC"
  | .chunkDataAsString => "CHUNK_DATA_AS_STRING"
  | .chunkSerialize => "CHUNK_SERIALIZE"
  | .pngClear => "PNG_CLEAR"
  | .pngParse => "PNG_PARSE"
  | .pngAppend => "PNG_APPEND"
  | .pngFind => "PNG_FIND"
  | .pngRemoveFirst => "PNG_REMOVE_FIRST"
  | .pngCount => "PNG_COUNT"
  | .pngGet => "PNG_GET"
  | .pngSerialize => "PNG_SERIALIZE"
  | .pngSignature => "PNG_SIGNATURE"

/-- All 28 commands, in the table's order. -/
def allInstrs : List Instr :=
  [.crc32, .u32Dec, .u32Enc, .typeFromStr, .typeFromBytes, .typeRead,
   .typeIsValid, .typeIsCritical, .typeIsPublic, .typeIsReservedBitValid, .typeIsSafeToCopy, .chunkNew,
   .chunkParse, .chunkLength, .chunkType, .chunkData, .chunkCrc, .chunkDataAsString,
   .chunkSerialize, .pngClear, .pngParse, .pngAppend, .pngFind, .pngRemoveFirst,
   .pngCount, .pngGet, .pngSerialize, .pngSignature]

/-- The command a mnemonic names. -/
def instrOfName (name : List Char) : Option Instr := allInstrs.find? fun i => (mnemonic i).toList == name

/-- The double-quote character. -/
def quoteChar : Char := Char.ofNat 34

/-- A space or a tab. -/
def isBlank (c : Char) : Bool := c == ' ' || c == '\t'

/-- The text after its leading blanks. -/
def skipBlanks (l : List Char) : List Char := l.dropWhile isBlank

/-- Nothing but blanks, or a comment, which runs from `;` to the end of the line. -/
def lineEnds (l : List Char) : Bool :=
  match skipBlanks l with
  | [] => true
  | c :: _ => c == ';'

/-- The ASCII code of a character; `none` outside ASCII. -/
def asciiByte (c : Char) : Option Byte := if c.toNat < 128 then some (BitVec.ofNat 8 c.toNat) else none

/-- Text up to the closing quote, as ASCII bytes, and what follows the quote. -/
def quotedText : List Char → Option (Bytes × List Char)
  | [] => none
  | c :: l =>
    if c == quoteChar then some ([], l)
    else
      match asciiByte c, quotedText l with
      | some b, some (bs, rest) => some (b :: bs, rest)
      | _, _ => none

/-- The value of a hexadecimal digit, in either case. -/
def hexDigit (c : Char) : Option Nat :=
  if '0'.toNat ≤ c.toNat ∧ c.toNat ≤ '9'.toNat then some (c.toNat - '0'.toNat)
  else if 'A'.toNat ≤ c.toNat ∧ c.toNat ≤ 'F'.toNat then some (c.toNat - 'A'.toNat + 10)
  else if 'a'.toNat ≤ c.toNat ∧ c.toNat ≤ 'f'.toNat then some (c.toNat - 'a'.toNat + 10)
  else none

/-- The value of a decimal digit. -/
def decDigit (c : Char) : Option Nat :=
  if '0'.toNat ≤ c.toNat ∧ c.toNat ≤ '9'.toNat then some (c.toNat - '0'.toNat) else none

/-- Hex pairs as far as they go, and what follows them; a digit without its partner is an error. -/
def hexPairs : List Char → Option (Bytes × List Char)
  | [] => some ([], [])
  | [c] => if (hexDigit c).isSome then none else some ([], [c])
  | c :: d :: l =>
    match hexDigit c, hexDigit d with
    | some x, some y =>
      match hexPairs l with
      | some (bs, rest) => some (BitVec.ofNat 8 (16 * x + y) :: bs, rest)
      | none => none
    | some _, none => none
    | none, _ => some ([], c :: d :: l)

/-- Digits as far as they go, in a base, after the value read so far. -/
def digits (digit : Char → Option Nat) (base : Nat) : Nat → List Char → Nat × List Char
  | v, [] => (v, [])
  | v, c :: l =>
    match digit c with
    | some x => digits digit base (base * v + x) l
    | none => (v, c :: l)

/-- A number that begins with a digit of its base. -/
def numeral (digit : Char → Option Nat) (base : Nat) : List Char → Option (Nat × List Char)
  | [] => none
  | c :: l => if (digit c).isSome then some (digits digit base 0 (c :: l)) else none

/-- A value of `warg`: `0x` and hexadecimal digits, or decimal digits. -/
def value : List Char → Option (Nat × List Char)
  | '0' :: 'x' :: l => numeral hexDigit 16 l
  | l => numeral decDigit 10 l

/-- The operand of `win`: quoted text, or `hex:` and pairs. -/
def winOperand : List Char → Option (Bytes × List Char)
  | 'h' :: 'e' :: 'x' :: ':' :: l => hexPairs l
  | c :: l => if c == quoteChar then quotedText l else none
  | [] => none

/-- The word a line begins with: up to a blank or a comment. -/
def leadingWord (l : List Char) : List Char := l.takeWhile fun c => !(isBlank c || c == ';')

/-- A `win` line after the word `win`. -/
def winLine (l : List Char) : Option HostEvent :=
  match winOperand (skipBlanks l) with
  | some (b, rest) => if lineEnds rest then some (.writeIn b) else none
  | none => none

/-- A `warg` line after the word `warg`; ARG takes a 32-bit value. -/
def wargLine (l : List Char) : Option HostEvent :=
  match value (skipBlanks l) with
  | some (v, rest) => if v < 2 ^ 32 ∧ lineEnds rest = true then some (.writeArg (BitVec.ofNat 32 v)) else none
  | none => none

/-- One line: `some none` for an empty or comment line, `none` for a line that is not of the syntax. -/
def assembleLine (line : List Char) : Option (Option HostEvent) :=
  let l := skipBlanks line
  if lineEnds l then some none
  else
    let word := leadingWord l
    let rest := l.drop word.length
    if word == ['w', 'i', 'n'] then (winLine rest).map some
    else if word == ['w', 'a', 'r', 'g'] then (wargLine rest).map some
    else
      match instrOfName word with
      | some i => if lineEnds rest then some (some (.cmd (encode i))) else none
      | none => none

/-- A program, one transaction a line; `none` if some line is not of the syntax. -/
def assemble : List (List Char) → Option (List HostEvent)
  | [] => some []
  | line :: lines =>
    match assembleLine line, assemble lines with
    | some (some e), some es => some (e :: es)
    | some none, some es => some es
    | _, _ => none

/-- The host issues a program after whatever is already to come (log entry 3). -/
def State.withProgram (s : State) (es : List HostEvent) : State := s.setPending (s.pending ++ es)

/-- A digit below 16, upper case above 9. -/
def hexChar (n : Nat) : Char := if n < 10 then Char.ofNat ('0'.toNat + n) else Char.ofNat ('A'.toNat + (n - 10))

/-- A byte as two hexadecimal digits. -/
def hexByte (b : Byte) : List Char := [hexChar (b.toNat / 16), hexChar (b.toNat % 16)]

/-- A listing's command line with its encoding in the comment, for example `CHUNK_NEW ; 0x20`. -/
def listing (i : Instr) : List Char := (mnemonic i).toList ++ " ; 0x".toList ++ hexByte (encode i)

end Sys2Proof.Machine
end

