-- ==== Sys2Proof/Safety.lean ====
section
/-! DEFINITION. What claims about the block are stated in: the invariant of its state, a host that keeps its duty, states
that differ only where nothing can be read, and the wire format's terms said apart from the machine. -/

namespace Sys2Proof.Machine

/-- 10_state.md R24's three invariants of a stored record. -/
abbrev Chunk.Valid (c : Chunk) : Prop :=
  c.length.toNat = c.data.length ∧ c.type.allLetters = true ∧ c.crc = crc32 (c.type.toBytes ++ c.data)

/-- The values 60_exceptions.md R97 lets STATUS take. -/
def legalStatus : List Byte :=
  [0x00#8, 0x01#8, 0x02#8, 0x03#8, 0x04#8, 0x05#8, 0x06#8, 0x10#8, 0x11#8, 0x12#8, 0x13#8]

/-- What every state the block can reach has: parameters within R8, buffers and store within capacity (R20, R21, R25), a
legal STATUS (R97), letters in a valid TR (R22), valid records in CR and SEQ (R24), none of them with more data than IN can
hold. -/
structure State.Inv (s : State) : Prop where
  config   : s.cfg.Valid
  capacity : Memory.wf s = true
  status   : s.status ∈ legalStatus
  type     : s.tr.valid = true → s.tr.bytes.allLetters = true
  chunk    : s.cr.valid = true → s.cr.chunk.Valid ∧ s.cr.chunk.data.length ≤ s.cfg.maxIn
  store    : ∀ c ∈ s.seq, c.Valid ∧ c.data.length ≤ s.cfg.maxIn

/-- The host keeps its duty in every event still to come (30_encoding.md R50, 70_reset_and_hazards.md R109 (e)). -/
abbrev State.HostLegal (s : State) : Prop := ∀ e ∈ s.pending, e.wellFormed s.cfg = true

/-- The two states agree on everything but what stands behind a cleared valid bit (10_state.md R31 "unreadable"). -/
structure State.SameVisible (s t : State) : Prop where
  cfg     : s.cfg = t.cfg
  status  : s.status = t.status
  arg     : s.arg = t.arg
  result  : s.result = t.result
  input   : s.input = t.input
  output  : s.output = t.output
  trValid : s.tr.valid = t.tr.valid
  trBytes : s.tr.valid = true → s.tr.bytes = t.tr.bytes
  crValid : s.cr.valid = t.cr.valid
  crChunk : s.cr.valid = true → s.cr.chunk = t.cr.chunk
  seq     : s.seq = t.seq
  pending : s.pending = t.pending
  answers : s.answers = t.answers

/-- A letter, by its code (41_chunk_type.md R61). -/
abbrev LetterByte (b : Byte) : Prop :=
  (0x41 ≤ b.toNat ∧ b.toNat ≤ 0x5A) ∨ (0x61 ≤ b.toNat ∧ b.toNat ≤ 0x7A)

/-- The number four bytes stand for, the first the most significant (20_memory.md R34). -/
def bigEndian (b0 b1 b2 b3 : Byte) : Nat :=
  b0.toNat * 2 ^ 24 + b1.toNat * 2 ^ 16 + b2.toNat * 2 ^ 8 + b3.toNat

/-- One well-formed UTF-8 code-unit sequence, row by row of 42_chunk.md R79. -/
def Utf8Sequence (p : Bytes) : Prop :=
  (∃ a, p = [a] ∧ a.toNat ≤ 0x7F) ∨
  (∃ a b, p = [a, b] ∧ (0xC2 ≤ a.toNat ∧ a.toNat ≤ 0xDF) ∧ (0x80 ≤ b.toNat ∧ b.toNat ≤ 0xBF)) ∨
  (∃ a b c, p = [a, b, c] ∧ (0x80 ≤ c.toNat ∧ c.toNat ≤ 0xBF) ∧
    ((a.toNat = 0xE0 ∧ 0xA0 ≤ b.toNat ∧ b.toNat ≤ 0xBF) ∨
     (0xE1 ≤ a.toNat ∧ a.toNat ≤ 0xEC ∧ 0x80 ≤ b.toNat ∧ b.toNat ≤ 0xBF) ∨
     (a.toNat = 0xED ∧ 0x80 ≤ b.toNat ∧ b.toNat ≤ 0x9F) ∨
     (0xEE ≤ a.toNat ∧ a.toNat ≤ 0xEF ∧ 0x80 ≤ b.toNat ∧ b.toNat ≤ 0xBF))) ∨
  (∃ a b c d, p = [a, b, c, d] ∧ (0x80 ≤ c.toNat ∧ c.toNat ≤ 0xBF) ∧ (0x80 ≤ d.toNat ∧ d.toNat ≤ 0xBF) ∧
    ((a.toNat = 0xF0 ∧ 0x90 ≤ b.toNat ∧ b.toNat ≤ 0xBF) ∨
     (0xF1 ≤ a.toNat ∧ a.toNat ≤ 0xF3 ∧ 0x80 ≤ b.toNat ∧ b.toNat ≤ 0xBF) ∨
     (a.toNat = 0xF4 ∧ 0x80 ≤ b.toNat ∧ b.toNat ≤ 0x8F)))

/-- The bytes with bit `j` of the byte at offset `k` flipped (42_chunk.md R83). -/
def flipBit (b : Bytes) (k j : Nat) : Bytes := b.modify k (· ^^^ BitVec.ofNat 8 (2 ^ j))

end Sys2Proof.Machine
end

