-- ==== Sys2Proof/Certificates/Slice0/Obligations.lean ====
section
/-! DEFINITION. The statements for the provers, from the spec's numbered rules. An equation `exec i s = .next { s with … }`
says at once that the command completes, its result, and its frame: whatever the record update does not name keeps its
value, every byte of IN and OUT and every record of SEQ among it. -/

open Sys2Proof Sys2Proof.Machine

/-! ## Encoding (30_encoding.md) -/

/-- R42: the 28 rows of the table are what the decoder reads, whole byte by whole byte, and nothing else decodes. -/
def Obligations.DecodeReadsExactlyTheOpcodeTable : Prop :=
  ∀ (op : Byte) (i : Instr), decode op = .ok i ↔ (op, i) ∈
    [(0x01#8, Instr.crc32), (0x02#8, .u32Dec), (0x03#8, .u32Enc), (0x10#8, .typeFromStr), (0x11#8, .typeFromBytes),
     (0x12#8, .typeRead), (0x13#8, .typeIsValid), (0x14#8, .typeIsCritical), (0x15#8, .typeIsPublic),
     (0x16#8, .typeIsReservedBitValid), (0x17#8, .typeIsSafeToCopy)] ++
    [(0x20#8, Instr.chunkNew), (0x21#8, .chunkParse), (0x22#8, .chunkLength), (0x23#8, .chunkType), (0x24#8, .chunkData),
     (0x25#8, .chunkCrc), (0x26#8, .chunkDataAsString), (0x27#8, .chunkSerialize)] ++
    [(0x30#8, Instr.pngClear), (0x31#8, .pngParse), (0x32#8, .pngAppend), (0x33#8, .pngFind), (0x34#8, .pngRemoveFirst),
     (0x35#8, .pngCount), (0x36#8, .pngGet), (0x37#8, .pngSerialize), (0x38#8, .pngSignature)]

/-- Decode and encode agree, for every well-formed command and whatever bytes follow its command word (R42, R44). -/
def Obligations.DecodeOfEncodeIsTheCommand : Prop :=
  ∀ (i : Instr) (rest : Bytes), i.wellFormed = true → decodeBytes (encode i :: rest) = .ok (i, rest)

/-- One command word of each family, written out bit by bit: F in bits 7..4, N in bits 3..0 (R42). -/
def Obligations.WrittenOutWordsDecode : Prop :=
  decodeTableWord 8 0b00000010 = some .u32Dec ∧ decodeTableWord 8 0b00010111 = some .typeIsSafeToCopy ∧
  decodeTableWord 8 0b00100110 = some .chunkDataAsString ∧ decodeTableWord 8 0b00110100 = some .pngRemoveFirst

/-! ## A step -/

/-- A step whose host event is a command word runs the decoded command; the event is used up, which is all the step adds. -/
def Obligations.StepRunsTheDecodedCommand : Prop :=
  ∀ (s : State) (op : Byte) (rest : List HostEvent) (i : Instr), s.pending = .cmd op :: rest → decode op = .ok i →
    i.wellFormed = true → step s = exec i { s with pending := rest }

/-- R43: an unassigned opcode sets STATUS to 0x10 (IllegalCommand) and changes nothing else; 0x00 is no no-op. -/
def Obligations.UnassignedOpcodeSetsOnlyStatus : Prop :=
  ∀ (s : State) (op : Byte) (rest : List HostEvent), s.pending = .cmd op :: rest →
    (op.toNat = 0x00 ∨ (0x04 ≤ op.toNat ∧ op.toNat ≤ 0x0F) ∨ (0x18 ≤ op.toNat ∧ op.toNat ≤ 0x1F) ∨
      (0x28 ≤ op.toNat ∧ op.toNat ≤ 0x2F) ∨ (0x39 ≤ op.toNat ∧ op.toNat ≤ 0xFF)) →
    step s = .next { s with pending := rest, status := 0x10#8 }

/-- R50, H_WRITE_IN: the whole content of IN is replaced and nothing else of the block changes, in particular no record
already stored; a write of more than MAX_IN bytes is no transaction and the step refuses it by name. -/
def Obligations.HostWriteInReplacesTheContent : Prop :=
  ∀ (s : State) (b : Bytes) (rest : List HostEvent), s.pending = .writeIn b :: rest →
    (b.length ≤ s.cfg.maxIn → step s = .next { s with pending := rest, input := b }) ∧
    (s.cfg.maxIn < b.length → step s = .refused .inputOverCapacity)

/-- R50, H_WRITE_ARG and R18: ARG takes the value and nothing else of the block changes. -/
def Obligations.HostWriteArgLoadsArg : Prop :=
  ∀ (s : State) (v : Word) (rest : List HostEvent), s.pending = .writeArg v :: rest →
    step s = .next { s with pending := rest, arg := v }

/-- R50, H_READ and H_READ_OUT (and the read of IN, the model's own event: log entry 4): the host gets the register or
the content, and no state of the block changes. The answers, newest last, are the model's own field (log entry 3). -/
def Obligations.HostReadsReturnTheValueAndChangeNothing : Prop :=
  ∀ (s : State) (e : HostEvent) (rest : List HostEvent), s.pending = e :: rest → ∀ a : HostAnswer,
    (e, a) ∈ [(HostEvent.read .status, HostAnswer.byte s.status), (.read .arg, .word s.arg), (.read .result, .word s.result),
      (.read .inLen, .word (BitVec.ofNat 32 s.input.length)), (.read .outLen, .word (BitVec.ofNat 32 s.output.length)),
      (.readOut, .bytes s.output), (.readIn, .bytes s.input)] →
    step s = .next { s with pending := rest, answers := s.answers ++ [a] }

/-- R107: asserting reset puts the block, in one step, into the values of R31's table. What stands behind the cleared valid
bits is unspecified there and this statement says nothing of it. That the parameters, the events to come and the earlier
answers stay as they are (the last three clauses) is the model's inference, DEDUCED: log entry 8, over the model's own fields
of log entries 1 and 3. -/
def Obligations.ResetEventGivesTheResetValues : Prop :=
  ∀ (s : State) (rest : List HostEvent), s.pending = .reset :: rest →
    ∃ t, step s = .next t ∧ t.status = 0x00#8 ∧ t.arg = 0#32 ∧ t.result = 0#32 ∧ t.input = [] ∧ t.output = [] ∧
      t.tr.valid = false ∧ t.cr.valid = false ∧ t.seq = [] ∧ t.cfg = s.cfg ∧ t.pending = rest ∧ t.answers = s.answers

/-- R31: the values of the reset table, for every choice of the parameters, and for the machine's own reset state. The two
constants of the table (SIG, and CRC_TABLE by the recurrence of R55) depend on no state. -/
def Obligations.ResetStateHoldsTheResetValues : Prop :=
  ∀ (s : State), (s = State.reset ∨ ∃ c, s = State.resetOf c) →
    s.status = 0x00#8 ∧ s.arg = 0#32 ∧ s.result = 0#32 ∧ s.inLen = 0#32 ∧ s.input = [] ∧ s.outLen = 0#32 ∧ s.output = [] ∧
      s.tr.valid = false ∧ s.cr.valid = false ∧ s.seq = [] ∧
      sig = [0x89#8, 0x50#8, 0x4E#8, 0x47#8, 0x0D#8, 0x0A#8, 0x1A#8, 0x0A#8] ∧
      ∀ n : Byte, crcTable n =
        Nat.repeat (fun c => if c.getLsbD 0 then (c >>> 1) ^^^ 0xEDB88320#32 else c >>> 1) 8 (n.zeroExtend 32)

/-- With no host event to come a step changes nothing. The model's choice (log entry 3), from 60_exceptions.md R103. -/
def Obligations.NoHostEventNoChange : Prop :=
  ∀ s : State, s.pending = [] → step s = .next s

/-! ## CRC-32 and the big-endian codec (40_crc_u32.md) -/

/-- R58, with the checksum spelled out as R53 gives it: from 0xFFFFFFFF, byte by byte in stream order, XOR the byte in and
eight times shift right, XOR-ing the polynomial where the bit shifted out was 1; at the end XOR 0xFFFFFFFF. -/
def Obligations.Crc32PutsTheChecksumOfInputInResult : Prop :=
  ∀ s : State, exec .crc32 s = .next { s with
    result := s.input.foldl (fun c b => Nat.repeat (fun c => if c.getLsbD 0 then (c >>> 1) ^^^ 0xEDB88320#32 else c >>> 1) 8
      (c ^^^ b.zeroExtend 32)) 0xFFFFFFFF#32 ^^^ 0xFFFFFFFF#32
    status := 0x00#8 }

/-- R59: TruncatedBuffer below four bytes, else the big-endian number of the first four; the rest of IN is ignored. -/
def Obligations.U32DecReadsTheFirstFourBytes : Prop :=
  ∀ s : State,
    (s.input.length < 4 → exec .u32Dec s = .next { s with status := 0x03#8 }) ∧
    ∀ b0 b1 b2 b3 rest, s.input = b0 :: b1 :: b2 :: b3 :: rest →
      exec .u32Dec s = .next { s with result := BitVec.ofNat 32 (bigEndian b0 b1 b2 b3), status := 0x00#8 }

/-- R60. -/
def Obligations.U32EncWritesArgBigEndian : Prop :=
  ∀ s : State, exec .u32Enc s = .next { s with
    output := [BitVec.ofNat 8 (s.arg.toNat / 2 ^ 24), BitVec.ofNat 8 (s.arg.toNat / 2 ^ 16),
               BitVec.ofNat 8 (s.arg.toNat / 2 ^ 8), BitVec.ofNat 8 s.arg.toNat]
    status := 0x00#8 }

/-- The codec's two round trips and the value it decodes (an inference the spec marks as derived in R57). -/
def Obligations.U32CodecRoundTrips : Prop :=
  (∀ v : Word, be32 (enc32 v) = some v) ∧
  ∀ (b0 b1 b2 b3 : Byte) (rest : Bytes), ∃ v, be32 (b0 :: b1 :: b2 :: b3 :: rest) = some v ∧
    v.toNat = bigEndian b0 b1 b2 b3 ∧ enc32 v = [b0, b1, b2, b3]

/-- The table-driven checksum and the bitwise one agree on every message (an inference the spec marks as derived in R55). -/
def Obligations.TableDrivenCrcIsTheBitwiseCrc : Prop :=
  ∀ m : Bytes, crc32Table m = crc32 m

/-! ## Chunk types (41_chunk_type.md) -/

/-- R62, R63, R61: four letters load TR, the reserved bit not enforced; any other content of IN gives InvalidTypeCode and
keeps TR. The two constructors have identical effects. -/
def Obligations.TypeConstructorsAcceptExactlyFourLetters : Prop :=
  ∀ (i : Instr) (s : State), i = .typeFromStr ∨ i = .typeFromBytes →
    (∀ b0 b1 b2 b3, s.input = [b0, b1, b2, b3] → LetterByte b0 → LetterByte b1 → LetterByte b2 → LetterByte b3 →
      exec i s = .next { s with tr := ⟨true, ⟨b0, b1, b2, b3⟩⟩, status := 0x00#8 }) ∧
    (s.input.length ≠ 4 ∨ (∃ b ∈ s.input, ¬ LetterByte b) → exec i s = .next { s with status := 0x02#8 })

/-- R64. -/
def Obligations.TypeReadCopiesTheTypeToOut : Prop :=
  ∀ s : State,
    (s.tr.valid = true → exec .typeRead s = .next { s with
      output := [s.tr.bytes.b0, s.tr.bytes.b1, s.tr.bytes.b2, s.tr.bytes.b3], status := 0x00#8 }) ∧
    (s.tr.valid = false → exec .typeRead s = .next { s with status := 0x11#8 })

/-- R65 to R69: bit 5 of one byte each; the safe-to-copy test has the opposite sense, and the full test wants letters too. -/
def Obligations.TypeTestsReadBitFive : Prop :=
  ∀ s : State,
    (s.tr.valid = true →
      exec .typeIsValid s = .next { s with status := 0x00#8, result :=
        if (LetterByte s.tr.bytes.b0 ∧ LetterByte s.tr.bytes.b1 ∧ LetterByte s.tr.bytes.b2 ∧ LetterByte s.tr.bytes.b3) ∧
          s.tr.bytes.b2 &&& 0x20#8 = 0x00#8 then 1#32 else 0#32 } ∧
      exec .typeIsCritical s = .next { s with status := 0x00#8, result :=
        if s.tr.bytes.b0 &&& 0x20#8 = 0x00#8 then 1#32 else 0#32 } ∧
      exec .typeIsPublic s = .next { s with status := 0x00#8, result :=
        if s.tr.bytes.b1 &&& 0x20#8 = 0x00#8 then 1#32 else 0#32 } ∧
      exec .typeIsReservedBitValid s = .next { s with status := 0x00#8, result :=
        if s.tr.bytes.b2 &&& 0x20#8 = 0x00#8 then 1#32 else 0#32 } ∧
      exec .typeIsSafeToCopy s = .next { s with status := 0x00#8, result :=
        if s.tr.bytes.b3 &&& 0x20#8 = 0x20#8 then 1#32 else 0#32 }) ∧
    (s.tr.valid = false → ∀ i ∈ [Instr.typeIsValid, .typeIsCritical, .typeIsPublic, .typeIsReservedBitValid, .typeIsSafeToCopy],
      exec i s = .next { s with status := 0x11#8 })

/-- On the block the full validity test equals the reserved-bit test (an inference the spec marks as derived in R65): TR
holds only letters. -/
def Obligations.FullValidityIsTheReservedBitTest : Prop :=
  ∀ s : State, s.Inv → exec .typeIsValid s = exec .typeIsReservedBitValid s

/-! ## Chunks (42_chunk.md) -/

/-- R72. -/
def Obligations.ChunkNewBuildsTheRecord : Prop :=
  ∀ s : State,
    (s.tr.valid = true → exec .chunkNew s = .next { s with
      cr := ⟨true, ⟨s.inLen, s.tr.bytes, s.input,
        crc32 ([s.tr.bytes.b0, s.tr.bytes.b1, s.tr.bytes.b2, s.tr.bytes.b3] ++ s.input)⟩⟩, status := 0x00#8 }) ∧
    (s.tr.valid = false → exec .chunkNew s = .next { s with status := 0x11#8 })

/-- R71: FrameParse's steps in their order: size below 12, type letters, declared length, checksum; then the record and
the bytes consumed, whatever follows the frame. -/
def Obligations.FrameParseFollowsItsSteps : Prop :=
  (∀ b : Bytes, b.length < 12 → frameParse b = .error .truncatedBuffer) ∧
  ∀ (l0 l1 l2 l3 t0 t1 t2 t3 : Byte) (rest b : Bytes), b = l0 :: l1 :: l2 :: l3 :: t0 :: t1 :: t2 :: t3 :: rest →
    12 ≤ b.length →
    ((∃ x ∈ [t0, t1, t2, t3], ¬ LetterByte x) → frameParse b = .error .invalidTypeCode) ∧
    ((∀ x ∈ [t0, t1, t2, t3], LetterByte x) →
      (b.length < 12 + bigEndian l0 l1 l2 l3 → frameParse b = .error .truncatedBuffer) ∧
      ∀ (d tail : Bytes) (c0 c1 c2 c3 : Byte), rest = d ++ c0 :: c1 :: c2 :: c3 :: tail → d.length = bigEndian l0 l1 l2 l3 →
        ((crc32 ([t0, t1, t2, t3] ++ d)).toNat ≠ bigEndian c0 c1 c2 c3 → frameParse b = .error .checksumMismatch) ∧
        ((crc32 ([t0, t1, t2, t3] ++ d)).toNat = bigEndian c0 c1 c2 c3 →
          frameParse b = .ok (⟨BitVec.ofNat 32 d.length, ⟨t0, t1, t2, t3⟩, d, crc32 ([t0, t1, t2, t3] ++ d)⟩, 12 + d.length)))

/-- R73: CR takes the record and RESULT the bytes consumed; a failure sets STATUS to FrameParse's kind and nothing else. -/
def Obligations.ChunkParseLoadsTheParsedFrame : Prop :=
  ∀ s : State,
    (∀ c n, frameParse s.input = .ok (c, n) →
      exec .chunkParse s = .next { s with cr := ⟨true, c⟩, result := BitVec.ofNat 32 n, status := 0x00#8 }) ∧
    (frameParse s.input = .error .truncatedBuffer → exec .chunkParse s = .next { s with status := 0x03#8 }) ∧
    (frameParse s.input = .error .invalidTypeCode → exec .chunkParse s = .next { s with status := 0x02#8 }) ∧
    (frameParse s.input = .error .checksumMismatch → exec .chunkParse s = .next { s with status := 0x04#8 })

/-- R73's completion on the operand alone: whatever valid record's frame stands at the start of IN, CHUNK_PARSE loads the
record and reports 12 + length; trailing bytes are ignored. -/
def Obligations.ChunkParseAcceptsEveryValidFrame : Prop :=
  ∀ (s : State) (c : Chunk) (rest : Bytes), c.Valid → s.input = frame c ++ rest →
    exec .chunkParse s = .next { s with cr := ⟨true, c⟩, result := BitVec.ofNat 32 (12 + c.data.length), status := 0x00#8 }

/-- FrameParse fails with no other kind than R73 names. -/
def Obligations.FrameParseFailsInThreeWays : Prop :=
  ∀ (b : Bytes) (e : ErrorKind), frameParse b = .error e → e ∈ [ErrorKind.truncatedBuffer, .invalidTypeCode, .checksumMismatch]

/-- R74, R77, R75: the three accessors that always fit. -/
def Obligations.ChunkAccessorsReadTheRecord : Prop :=
  ∀ s : State,
    (s.cr.valid = true →
      exec .chunkLength s = .next { s with result := s.cr.chunk.length, status := 0x00#8 } ∧
      exec .chunkCrc s = .next { s with result := s.cr.chunk.crc, status := 0x00#8 } ∧
      exec .chunkType s = .next { s with
        tr := ⟨true, s.cr.chunk.type⟩
        output := [s.cr.chunk.type.b0, s.cr.chunk.type.b1, s.cr.chunk.type.b2, s.cr.chunk.type.b3]
        status := 0x00#8 }) ∧
    (s.cr.valid = false → ∀ i ∈ [Instr.chunkLength, .chunkCrc, .chunkType], exec i s = .next { s with status := 0x11#8 })

/-- R76: the data as raw bytes if it fits OUT. -/
def Obligations.ChunkDataWritesTheData : Prop :=
  ∀ s : State,
    (s.cr.valid = false → exec .chunkData s = .next { s with status := 0x11#8 }) ∧
    (s.cr.valid = true → s.cfg.maxOut < s.cr.chunk.length.toNat → exec .chunkData s = .next { s with status := 0x13#8 }) ∧
    (s.cr.valid = true → s.cr.chunk.length.toNat ≤ s.cfg.maxOut →
      exec .chunkData s = .next { s with output := s.cr.chunk.data, status := 0x00#8 })

/-- R78: OperandInvalid, then InvalidUtf8, then CapacityExceeded, then the data unchanged. -/
def Obligations.ChunkDataAsStringChecksUtf8First : Prop :=
  ∀ s : State,
    (s.cr.valid = false → exec .chunkDataAsString s = .next { s with status := 0x11#8 }) ∧
    (s.cr.valid = true → utf8WellFormed s.cr.chunk.data = false →
      exec .chunkDataAsString s = .next { s with status := 0x05#8 }) ∧
    (s.cr.valid = true → utf8WellFormed s.cr.chunk.data = true → s.cfg.maxOut < s.cr.chunk.length.toNat →
      exec .chunkDataAsString s = .next { s with status := 0x13#8 }) ∧
    (s.cr.valid = true → utf8WellFormed s.cr.chunk.data = true → s.cr.chunk.length.toNat ≤ s.cfg.maxOut →
      exec .chunkDataAsString s = .next { s with output := s.cr.chunk.data, status := 0x00#8 })

/-- R79: well-formed means a split into sequences of the table's rows with nothing left over. -/
def Obligations.Utf8WellFormedIsASplitIntoTableRows : Prop :=
  ∀ d : Bytes, utf8WellFormed d = true ↔ ∃ parts : List Bytes, (∀ p ∈ parts, Utf8Sequence p) ∧ d = parts.flatten

/-- R81, R80: the frame, byte field by byte field, if its exact size fits OUT. -/
def Obligations.ChunkSerializeWritesTheFrame : Prop :=
  ∀ s : State,
    (s.cr.valid = false → exec .chunkSerialize s = .next { s with status := 0x11#8 }) ∧
    (s.cr.valid = true → s.cfg.maxOut < 12 + s.cr.chunk.length.toNat →
      exec .chunkSerialize s = .next { s with status := 0x13#8 }) ∧
    (s.cr.valid = true → 12 + s.cr.chunk.length.toNat ≤ s.cfg.maxOut →
      exec .chunkSerialize s = .next { s with
        output := enc32 s.cr.chunk.length ++
          [s.cr.chunk.type.b0, s.cr.chunk.type.b1, s.cr.chunk.type.b2, s.cr.chunk.type.b3] ++
          s.cr.chunk.data ++ enc32 s.cr.chunk.crc
        status := 0x00#8 })

/-- The chunk round trip (an inference the spec marks as derived in R82): parsing a frame gives the record back, whatever
follows it, and what a parse accepts is exactly a valid record's frame. -/
def Obligations.FrameAndFrameParseAreInverse : Prop :=
  (∀ (c : Chunk) (rest : Bytes), c.Valid → frameParse (frame c ++ rest) = .ok (c, 12 + c.length.toNat)) ∧
  ∀ (b : Bytes) (c : Chunk) (n : Nat), frameParse b = .ok (c, n) →
    c.Valid ∧ n = 12 + c.length.toNat ∧ n ≤ b.length ∧ frame c = b.take n

/-- The same on the block, as three host events (derived, R82): CHUNK_SERIALIZE, OUT written to IN, CHUNK_PARSE. -/
def Obligations.SerializeThenParseRestoresTheChunk : Prop :=
  ∀ s : State, s.Inv → s.cr.valid = true →
    12 + s.cr.chunk.length.toNat ≤ s.cfg.maxOut → 12 + s.cr.chunk.length.toNat ≤ s.cfg.maxIn →
    s.pending = [.cmd 0x27#8, .writeIn (frame s.cr.chunk), .cmd 0x21#8] →
    ∃ t, Sys2Proof.core.run 3 s = .next t ∧ t.output = frame s.cr.chunk ∧ t.cr = s.cr ∧
      t.result.toNat = 12 + s.cr.chunk.length.toNat ∧ t.status = 0x00#8 ∧ t.seq = s.seq

/-- Checksum sensitivity (R83; that every single-bit error is found is the spec's general knowledge G5): flipping one bit
of the type or the data of a valid record's frame gives ChecksumMismatch, or InvalidTypeCode where a type byte stops being
a letter. -/
def Obligations.OneFlippedBitIsAlwaysFound : Prop :=
  ∀ (c : Chunk) (k j : Nat), c.Valid → 4 ≤ k → k < 8 + c.data.length → j < 8 →
    ((8 ≤ k ∨ ∀ x ∈ byteAt (flipBit (frame c) k j) k, LetterByte x) →
      frameParse (flipBit (frame c) k j) = .error .checksumMismatch) ∧
    ((k < 8 ∧ ∃ x ∈ byteAt (flipBit (frame c) k j) k, ¬ LetterByte x) →
      frameParse (flipBit (frame c) k j) = .error .invalidTypeCode)

/-! ## The container (43_container.md) -/

/-- R86, R91, R94: the commands that always succeed. -/
def Obligations.ClearCountAndSignature : Prop :=
  ∀ s : State,
    exec .pngClear s = .next { s with seq := [], status := 0x00#8 } ∧
    exec .pngCount s = .next { s with result := BitVec.ofNat 32 s.seq.length, status := 0x00#8 } ∧
    exec .pngSignature s = .next { s with
      output := [0x89#8, 0x50#8, 0x4E#8, 0x47#8, 0x0D#8, 0x0A#8, 0x1A#8, 0x0A#8]
      status := 0x00#8 }

/-- R84: fewer than 8 bytes, or another first 8, is InvalidSignature whatever follows. -/
def Obligations.ContainerParseWantsTheSignature : Prop :=
  ∀ b : Bytes, (b.length < 8 ∨ b.take 8 ≠ [0x89#8, 0x50#8, 0x4E#8, 0x47#8, 0x0D#8, 0x0A#8, 0x1A#8, 0x0A#8]) →
    containerParse b = .error .invalidSignature

/-- R85: the loop, one frame at a time: the signature alone is the empty list; after any number of valid frames the first
bad frame's kind is the result; valid frames up to the end are the list. -/
def Obligations.ContainerParseFollowsItsLoop : Prop :=
  ∀ (l : List Chunk) (rest : Bytes), (∀ c ∈ l, c.Valid) →
    (rest = [] → containerParse (containerStream l ++ rest) = .ok l) ∧
    (∀ e, rest ≠ [] → frameParse rest = .error e → containerParse (containerStream l ++ rest) = .error e) ∧
    (∀ c n, frameParse rest = .ok (c, n) → c.Valid ∧ containerStream l ++ rest = containerStream (l ++ [c]) ++ rest.drop n)

/-- The container round trip (an inference the spec marks as derived in R95): what parses is exactly the stream of a list
of valid records. -/
def Obligations.ContainerParseIsTheInverseOfTheStream : Prop :=
  ∀ (b : Bytes) (l : List Chunk), containerParse b = .ok l ↔ (∀ c ∈ l, c.Valid) ∧ b = containerStream l

/-- R87: SEQ takes the list and RESULT its length; every parse failure keeps SEQ and gives the source's kind; capacity is
looked at only after the whole buffer has parsed. -/
def Obligations.PngParseReplacesTheSequenceOrKeepsIt : Prop :=
  ∀ s : State,
    (∀ l, containerParse s.input = .ok l → l.length ≤ s.cfg.maxChunks →
      exec .pngParse s = .next { s with seq := l, result := BitVec.ofNat 32 l.length, status := 0x00#8 }) ∧
    (∀ l, containerParse s.input = .ok l → s.cfg.maxChunks < l.length → exec .pngParse s = .next { s with status := 0x13#8 }) ∧
    (∀ e, containerParse s.input = .error e →
      ∃ code, (e, code) ∈ [(ErrorKind.invalidSignature, 0x01#8), (.truncatedBuffer, 0x03#8), (.invalidTypeCode, 0x02#8),
        (.checksumMismatch, 0x04#8)] ∧ exec .pngParse s = .next { s with status := code })

/-- R87's completion on the operand alone: whatever list of valid records IN holds the stream of, PNG_PARSE makes it SEQ and
reports its length, if SEQ can hold it; otherwise CapacityExceeded and SEQ stays. -/
def Obligations.PngParseAcceptsEveryValidStream : Prop :=
  ∀ (s : State) (l : List Chunk), (∀ c ∈ l, c.Valid) → s.input = containerStream l →
    (l.length ≤ s.cfg.maxChunks →
      exec .pngParse s = .next { s with seq := l, result := BitVec.ofNat 32 l.length, status := 0x00#8 }) ∧
    (s.cfg.maxChunks < l.length → exec .pngParse s = .next { s with status := 0x13#8 })

/-- R88: a copy of CR at the tail, unless CR is empty or SEQ is full. -/
def Obligations.PngAppendAddsAtTheTail : Prop :=
  ∀ s : State,
    (s.cr.valid = false → exec .pngAppend s = .next { s with status := 0x11#8 }) ∧
    (s.cr.valid = true → s.seq.length = s.cfg.maxChunks → exec .pngAppend s = .next { s with status := 0x13#8 }) ∧
    (s.cr.valid = true → s.seq.length ≠ s.cfg.maxChunks →
      exec .pngAppend s = .next { s with seq := s.seq ++ [s.cr.chunk], status := 0x00#8 })

/-- R89, R70: the first record whose four type bytes are the content of IN goes to CR; with none, RESULT is 0, CR keeps its
value and STATUS is 0x00. -/
def Obligations.PngFindReturnsTheFirstMatch : Prop :=
  ∀ s : State,
    (∀ (before after : List Chunk) (c : Chunk), s.seq = before ++ c :: after →
      (∀ d ∈ before, [d.type.b0, d.type.b1, d.type.b2, d.type.b3] ≠ s.input) →
      [c.type.b0, c.type.b1, c.type.b2, c.type.b3] = s.input →
      exec .pngFind s = .next { s with cr := ⟨true, c⟩, result := 1#32, status := 0x00#8 }) ∧
    ((∀ d ∈ s.seq, [d.type.b0, d.type.b1, d.type.b2, d.type.b3] ≠ s.input) →
      exec .pngFind s = .next { s with result := 0#32, status := 0x00#8 })

/-- R90, R70: the first matching record leaves SEQ and the rest keeps its order; with none, ChunkNotFound and SEQ stays. -/
def Obligations.PngRemoveFirstRemovesTheFirstMatch : Prop :=
  ∀ s : State,
    (∀ (before after : List Chunk) (c : Chunk), s.seq = before ++ c :: after →
      (∀ d ∈ before, [d.type.b0, d.type.b1, d.type.b2, d.type.b3] ≠ s.input) →
      [c.type.b0, c.type.b1, c.type.b2, c.type.b3] = s.input →
      exec .pngRemoveFirst s = .next { s with seq := before ++ after, status := 0x00#8 }) ∧
    ((∀ d ∈ s.seq, [d.type.b0, d.type.b1, d.type.b2, d.type.b3] ≠ s.input) →
      exec .pngRemoveFirst s = .next { s with status := 0x06#8 })

/-- R92: ARG is an unsigned index from 0, with no scaling. -/
def Obligations.PngGetCopiesTheIndexedChunk : Prop :=
  ∀ s : State,
    (s.seq.length ≤ s.arg.toNat → exec .pngGet s = .next { s with status := 0x12#8 }) ∧
    (∀ (before after : List Chunk) (c : Chunk), s.seq = before ++ c :: after → before.length = s.arg.toNat →
      exec .pngGet s = .next { s with cr := ⟨true, c⟩, status := 0x00#8 })

/-- R93, R80: SIG and then each record's frame in sequence order, if it fits OUT. -/
def Obligations.PngSerializeWritesTheStream : Prop :=
  ∀ (s : State) (stream : Bytes),
    stream = [0x89#8, 0x50#8, 0x4E#8, 0x47#8, 0x0D#8, 0x0A#8, 0x1A#8, 0x0A#8] ++
      (s.seq.map fun c => enc32 c.length ++ [c.type.b0, c.type.b1, c.type.b2, c.type.b3] ++ c.data ++ enc32 c.crc).flatten →
    (s.cfg.maxOut < stream.length → exec .pngSerialize s = .next { s with status := 0x13#8 }) ∧
    (stream.length ≤ s.cfg.maxOut → exec .pngSerialize s = .next { s with output := stream, status := 0x00#8 })

/-- The size R93 gives the stream: 8 and, for each valid record, 12 and its length. -/
def Obligations.StreamLengthIsEightPlusTheFrames : Prop :=
  ∀ l : List Chunk, (∀ c ∈ l, c.Valid) → (containerStream l).length = 8 + (l.map fun c => 12 + c.length.toNat).sum

/-- The container round trip on the block (derived, R95): PNG_PARSE, then PNG_SERIALIZE, gives OUT = IN. -/
def Obligations.ParseThenSerializeReproducesTheInput : Prop :=
  ∀ (s : State) (l : List Chunk), containerParse s.input = .ok l → l.length ≤ s.cfg.maxChunks → s.input.length ≤ s.cfg.maxOut →
    s.pending = [.cmd 0x31#8, .cmd 0x37#8] →
    ∃ t, Sys2Proof.core.run 2 s = .next t ∧ t.output = s.input ∧ t.seq = l ∧ t.status = 0x00#8

/-- Append then remove (an inference the spec marks as derived in R96), as three host events after the append's key is in
IN: the first chunk of CR's type goes; with none of that type before, SEQ is as it was and a second removal finds nothing. -/
def Obligations.AppendThenRemoveRestoresTheSequence : Prop :=
  ∀ (s : State) (rest : List HostEvent), s.cr.valid = true → s.seq.length ≠ s.cfg.maxChunks → s.input = s.cr.chunk.type.toBytes →
    s.pending = .cmd 0x32#8 :: .cmd 0x34#8 :: .cmd 0x34#8 :: rest →
    ((∀ d ∈ s.seq, d.type ≠ s.cr.chunk.type) →
      Sys2Proof.core.run 2 s = .next { s with pending := .cmd 0x34#8 :: rest, status := 0x00#8 } ∧
      Sys2Proof.core.run 3 s = .next { s with pending := rest, status := 0x06#8 }) ∧
    (∀ before after d, s.seq = before ++ d :: after → (∀ x ∈ before, x.type ≠ s.cr.chunk.type) → d.type = s.cr.chunk.type →
      Sys2Proof.core.run 2 s =
        .next { s with pending := .cmd 0x34#8 :: rest, seq := before ++ after ++ [s.cr.chunk], status := 0x00#8 })

/-! ## Whole-machine rules -/

/-- R102, R97, R113: every command completes, with one of the listed codes in STATUS, whatever the state. -/
def Obligations.EveryCommandCompletesWithAListedStatus : Prop :=
  ∀ (i : Instr) (s : State), ∃ t, exec i s = .next t ∧
    t.status ∈ [0x00#8, 0x01#8, 0x02#8, 0x03#8, 0x04#8, 0x05#8, 0x06#8, 0x10#8, 0x11#8, 0x12#8, 0x13#8]

/-- R97, the column "raised by": which commands can raise which code. IllegalCommand is raised by no assigned opcode. -/
def Obligations.EachCodeIsRaisedOnlyByItsCommands : Prop :=
  ∀ (i : Instr) (s t : State), exec i s = .next t →
    (t.status = 0x01#8 → i = .pngParse) ∧
    (t.status = 0x02#8 → i ∈ [Instr.typeFromStr, .typeFromBytes, .chunkParse, .pngParse]) ∧
    (t.status = 0x03#8 → i ∈ [Instr.u32Dec, .chunkParse, .pngParse]) ∧
    (t.status = 0x04#8 → i ∈ [Instr.chunkParse, .pngParse]) ∧
    (t.status = 0x05#8 → i = .chunkDataAsString) ∧
    (t.status = 0x06#8 → i = .pngRemoveFirst) ∧
    t.status ≠ 0x10#8 ∧
    (t.status = 0x11#8 → i ∈ [Instr.typeRead, .typeIsValid, .typeIsCritical, .typeIsPublic, .typeIsReservedBitValid,
      .typeIsSafeToCopy, .chunkNew, .chunkLength, .chunkType, .chunkData, .chunkCrc, .chunkDataAsString, .chunkSerialize,
      .pngAppend]) ∧
    (t.status = 0x12#8 → i = .pngGet) ∧
    (t.status = 0x13#8 → i ∈ [Instr.chunkData, .chunkDataAsString, .chunkSerialize, .pngParse, .pngAppend, .pngSerialize])

/-- R98: a command that fails writes STATUS and nothing else. -/
def Obligations.AFailingCommandWritesOnlyStatus : Prop :=
  ∀ (i : Instr) (s t : State), exec i s = .next t → t.status ≠ 0x00#8 → t = { s with status := t.status }

/-- R52: what no command writes, and for each other piece of state the only commands that write it. -/
def Obligations.CommandsWriteOnlyWhatTheTableNames : Prop :=
  ∀ (i : Instr) (s t : State), exec i s = .next t →
    (t.cfg = s.cfg ∧ t.arg = s.arg ∧ t.input = s.input ∧ t.pending = s.pending ∧ t.answers = s.answers) ∧
    (i ∉ [Instr.crc32, .u32Dec, .typeIsValid, .typeIsCritical, .typeIsPublic, .typeIsReservedBitValid, .typeIsSafeToCopy,
      .chunkParse, .chunkLength, .chunkCrc, .pngParse, .pngFind, .pngCount] → t.result = s.result) ∧
    (i ∉ [Instr.u32Enc, .typeRead, .chunkType, .chunkData, .chunkDataAsString, .chunkSerialize, .pngSerialize, .pngSignature] →
      t.output = s.output) ∧
    (i ∉ [Instr.typeFromStr, .typeFromBytes, .chunkType] → t.tr = s.tr) ∧
    (i ∉ [Instr.chunkNew, .chunkParse, .pngFind, .pngGet] → t.cr = s.cr) ∧
    (i ∉ [Instr.pngClear, .pngParse, .pngAppend, .pngRemoveFirst] → t.seq = s.seq)

/-- R99, R102: STATUS is not sticky, and the next command runs the same whatever STATUS holds. -/
def Obligations.StatusNeverMattersToTheNextCommand : Prop :=
  ∀ (i : Instr) (s : State) (x : Byte), exec i { s with status := x } = exec i s

/-- R39: a command that only reads gives the same answer while IN, ARG, TR, CR and SEQ are unchanged. -/
def Obligations.ReadingCommandsGiveTheSameAnswer : Prop :=
  ∀ (i : Instr) (s s' t t' : State), i ∈ [Instr.crc32, .u32Dec, .typeIsValid, .typeIsCritical, .typeIsPublic,
      .typeIsReservedBitValid, .typeIsSafeToCopy, .chunkLength, .chunkCrc, .pngCount] →
    s.input = s'.input → s.arg = s'.arg → s.tr = s'.tr → s.cr = s'.cr → s.seq = s'.seq →
    exec i s = .next t → exec i s' = .next t' →
    t.status = t'.status ∧ (t.status = 0x00#8 → t.result = t'.result) ∧
      t.input = s.input ∧ t.arg = s.arg ∧ t.tr = s.tr ∧ t.cr = s.cr ∧ t.seq = s.seq

/-- The note under R8's table (which the spec marks as derived): with MAX_OUT at least MAX_IN + 12, the chunk-level output commands
never raise CapacityExceeded. -/
def Obligations.RoomyOutNeverOverflows : Prop :=
  ∀ (s t : State) (i : Instr), s.Inv → s.cfg.maxIn + 12 ≤ s.cfg.maxOut →
    i ∈ [Instr.chunkData, .chunkDataAsString, .chunkSerialize] → exec i s = .next t → t.status ≠ 0x13#8

/-- The state after reset meets the invariant, for every choice of the parameters R8 allows, the model's own among them. -/
def Obligations.ResetMeetsTheInvariant : Prop :=
  State.reset.Inv ∧ ∀ c : Config, c.Valid → (State.resetOf c).Inv

/-- R20, R21, R22, R24, R25, R97 for every state a step reaches: capacities, letters in TR, the three invariants of every
stored record, a listed STATUS. The bound on stored data is the model's addition (DEDUCED, log entry 7). -/
def Obligations.EveryStepKeepsTheInvariant : Prop :=
  ∀ s t : State, s.Inv → step s = .next t → t.Inv

/-- A host that keeps its duty never meets a stop: the step answers a next state, and the duty is kept for what is left
(R102, R109 (e)). -/
def Obligations.ALegalHostIsNeverStopped : Prop :=
  ∀ s : State, s.HostLegal → ∃ t, step s = .next t ∧ t.HostLegal

/-- Unreadable bytes stay unread (an inference the spec marks as derived under R31): two states that differ only behind cleared
valid bits step to states that differ only there, with the same answers to the host. -/
def Obligations.UnreadableBytesNeverReachAnOutput : Prop :=
  ∀ s s' t : State, s.SameVisible s' → step s = .next t → ∃ t', step s' = .next t' ∧ t.SameVisible t'

/-! ## Host programs (30_encoding.md R51) -/

/-- R51: a mnemonic alone, a listing line of the command, and either with a comment, is H_CMD of its opcode. -/
def Obligations.MnemonicLinesIssueTheirCommand : Prop :=
  ∀ (i : Instr) (comment : List Char), (∀ c ∈ comment, c ≠ '\n') →
    assembleLine (mnemonic i).toList = some (some (.cmd (encode i))) ∧
    assembleLine ((mnemonic i).toList ++ ' ' :: ';' :: comment) = some (some (.cmd (encode i))) ∧
    assembleLine (listing i) = some (some (.cmd (encode i)))

/-- R51: `win hex:<pairs>` writes the given bytes, none for no pairs; `win` with quoted ASCII text writes its codes; `warg`
with a hexadecimal value loads ARG. -/
def Obligations.WinAndWargLinesIssueTheirWrites : Prop :=
  (∀ b : Bytes, assembleLine ("win hex:".toList ++ b.flatMap hexByte) = some (some (.writeIn b))) ∧
  (∀ text : List Char, (∀ c ∈ text, c.toNat < 128 ∧ c ≠ quoteChar ∧ c ≠ '\n') →
    assembleLine ("win ".toList ++ quoteChar :: text ++ [quoteChar]) =
      some (some (.writeIn (text.map fun c => BitVec.ofNat 8 c.toNat)))) ∧
  ∀ b0 b1 b2 b3 : Byte,
    assembleLine ("warg 0x".toList ++ (hexByte b0 ++ hexByte b1 ++ hexByte b2 ++ hexByte b3)) =
      some (some (.writeArg (BitVec.ofNat 32 (bigEndian b0 b1 b2 b3))))
end

