-- ==== Sys2Proof/Laws/State.lean ====
section
/-! SUPPORT. What each update of the state leaves in each field: one lemma per field per update, so that no proof unfolds
a record update. -/

namespace Sys2Proof.Machine

variable (s : State)

/-! ### setStatus -/

@[simp] theorem State.setStatus_cfg (v : Byte) : (s.setStatus v).cfg = s.cfg := rfl
@[simp] theorem State.setStatus_status (v : Byte) : (s.setStatus v).status = v := rfl
@[simp] theorem State.setStatus_arg (v : Byte) : (s.setStatus v).arg = s.arg := rfl
@[simp] theorem State.setStatus_result (v : Byte) : (s.setStatus v).result = s.result := rfl
@[simp] theorem State.setStatus_input (v : Byte) : (s.setStatus v).input = s.input := rfl
@[simp] theorem State.setStatus_output (v : Byte) : (s.setStatus v).output = s.output := rfl
@[simp] theorem State.setStatus_tr (v : Byte) : (s.setStatus v).tr = s.tr := rfl
@[simp] theorem State.setStatus_cr (v : Byte) : (s.setStatus v).cr = s.cr := rfl
@[simp] theorem State.setStatus_seq (v : Byte) : (s.setStatus v).seq = s.seq := rfl
@[simp] theorem State.setStatus_pending (v : Byte) : (s.setStatus v).pending = s.pending := rfl
@[simp] theorem State.setStatus_answers (v : Byte) : (s.setStatus v).answers = s.answers := rfl

/-! ### setArg -/

@[simp] theorem State.setArg_cfg (v : Word) : (s.setArg v).cfg = s.cfg := rfl
@[simp] theorem State.setArg_status (v : Word) : (s.setArg v).status = s.status := rfl
@[simp] theorem State.setArg_arg (v : Word) : (s.setArg v).arg = v := rfl
@[simp] theorem State.setArg_result (v : Word) : (s.setArg v).result = s.result := rfl
@[simp] theorem State.setArg_input (v : Word) : (s.setArg v).input = s.input := rfl
@[simp] theorem State.setArg_output (v : Word) : (s.setArg v).output = s.output := rfl
@[simp] theorem State.setArg_tr (v : Word) : (s.setArg v).tr = s.tr := rfl
@[simp] theorem State.setArg_cr (v : Word) : (s.setArg v).cr = s.cr := rfl
@[simp] theorem State.setArg_seq (v : Word) : (s.setArg v).seq = s.seq := rfl
@[simp] theorem State.setArg_pending (v : Word) : (s.setArg v).pending = s.pending := rfl
@[simp] theorem State.setArg_answers (v : Word) : (s.setArg v).answers = s.answers := rfl

/-! ### setResult -/

@[simp] theorem State.setResult_cfg (v : Word) : (s.setResult v).cfg = s.cfg := rfl
@[simp] theorem State.setResult_status (v : Word) : (s.setResult v).status = s.status := rfl
@[simp] theorem State.setResult_arg (v : Word) : (s.setResult v).arg = s.arg := rfl
@[simp] theorem State.setResult_result (v : Word) : (s.setResult v).result = v := rfl
@[simp] theorem State.setResult_input (v : Word) : (s.setResult v).input = s.input := rfl
@[simp] theorem State.setResult_output (v : Word) : (s.setResult v).output = s.output := rfl
@[simp] theorem State.setResult_tr (v : Word) : (s.setResult v).tr = s.tr := rfl
@[simp] theorem State.setResult_cr (v : Word) : (s.setResult v).cr = s.cr := rfl
@[simp] theorem State.setResult_seq (v : Word) : (s.setResult v).seq = s.seq := rfl
@[simp] theorem State.setResult_pending (v : Word) : (s.setResult v).pending = s.pending := rfl
@[simp] theorem State.setResult_answers (v : Word) : (s.setResult v).answers = s.answers := rfl

/-! ### setInput -/

@[simp] theorem State.setInput_cfg (b : Bytes) : (s.setInput b).cfg = s.cfg := rfl
@[simp] theorem State.setInput_status (b : Bytes) : (s.setInput b).status = s.status := rfl
@[simp] theorem State.setInput_arg (b : Bytes) : (s.setInput b).arg = s.arg := rfl
@[simp] theorem State.setInput_result (b : Bytes) : (s.setInput b).result = s.result := rfl
@[simp] theorem State.setInput_input (b : Bytes) : (s.setInput b).input = b := rfl
@[simp] theorem State.setInput_output (b : Bytes) : (s.setInput b).output = s.output := rfl
@[simp] theorem State.setInput_tr (b : Bytes) : (s.setInput b).tr = s.tr := rfl
@[simp] theorem State.setInput_cr (b : Bytes) : (s.setInput b).cr = s.cr := rfl
@[simp] theorem State.setInput_seq (b : Bytes) : (s.setInput b).seq = s.seq := rfl
@[simp] theorem State.setInput_pending (b : Bytes) : (s.setInput b).pending = s.pending := rfl
@[simp] theorem State.setInput_answers (b : Bytes) : (s.setInput b).answers = s.answers := rfl

/-! ### memWrite -/

@[simp] theorem State.memWrite_cfg (b : Bytes) : (s.memWrite b).cfg = s.cfg := rfl
@[simp] theorem State.memWrite_status (b : Bytes) : (s.memWrite b).status = s.status := rfl
@[simp] theorem State.memWrite_arg (b : Bytes) : (s.memWrite b).arg = s.arg := rfl
@[simp] theorem State.memWrite_result (b : Bytes) : (s.memWrite b).result = s.result := rfl
@[simp] theorem State.memWrite_input (b : Bytes) : (s.memWrite b).input = s.input := rfl
@[simp] theorem State.memWrite_output (b : Bytes) : (s.memWrite b).output = b := rfl
@[simp] theorem State.memWrite_tr (b : Bytes) : (s.memWrite b).tr = s.tr := rfl
@[simp] theorem State.memWrite_cr (b : Bytes) : (s.memWrite b).cr = s.cr := rfl
@[simp] theorem State.memWrite_seq (b : Bytes) : (s.memWrite b).seq = s.seq := rfl
@[simp] theorem State.memWrite_pending (b : Bytes) : (s.memWrite b).pending = s.pending := rfl
@[simp] theorem State.memWrite_answers (b : Bytes) : (s.memWrite b).answers = s.answers := rfl

/-! ### loadType -/

@[simp] theorem State.loadType_cfg (t : TypeCode) : (s.loadType t).cfg = s.cfg := rfl
@[simp] theorem State.loadType_status (t : TypeCode) : (s.loadType t).status = s.status := rfl
@[simp] theorem State.loadType_arg (t : TypeCode) : (s.loadType t).arg = s.arg := rfl
@[simp] theorem State.loadType_result (t : TypeCode) : (s.loadType t).result = s.result := rfl
@[simp] theorem State.loadType_input (t : TypeCode) : (s.loadType t).input = s.input := rfl
@[simp] theorem State.loadType_output (t : TypeCode) : (s.loadType t).output = s.output := rfl
@[simp] theorem State.loadType_tr (t : TypeCode) : (s.loadType t).tr = ⟨true, t⟩ := rfl
@[simp] theorem State.loadType_cr (t : TypeCode) : (s.loadType t).cr = s.cr := rfl
@[simp] theorem State.loadType_seq (t : TypeCode) : (s.loadType t).seq = s.seq := rfl
@[simp] theorem State.loadType_pending (t : TypeCode) : (s.loadType t).pending = s.pending := rfl
@[simp] theorem State.loadType_answers (t : TypeCode) : (s.loadType t).answers = s.answers := rfl

/-! ### loadChunk -/

@[simp] theorem State.loadChunk_cfg (c : Chunk) : (s.loadChunk c).cfg = s.cfg := rfl
@[simp] theorem State.loadChunk_status (c : Chunk) : (s.loadChunk c).status = s.status := rfl
@[simp] theorem State.loadChunk_arg (c : Chunk) : (s.loadChunk c).arg = s.arg := rfl
@[simp] theorem State.loadChunk_result (c : Chunk) : (s.loadChunk c).result = s.result := rfl
@[simp] theorem State.loadChunk_input (c : Chunk) : (s.loadChunk c).input = s.input := rfl
@[simp] theorem State.loadChunk_output (c : Chunk) : (s.loadChunk c).output = s.output := rfl
@[simp] theorem State.loadChunk_tr (c : Chunk) : (s.loadChunk c).tr = s.tr := rfl
@[simp] theorem State.loadChunk_cr (c : Chunk) : (s.loadChunk c).cr = ⟨true, c⟩ := rfl
@[simp] theorem State.loadChunk_seq (c : Chunk) : (s.loadChunk c).seq = s.seq := rfl
@[simp] theorem State.loadChunk_pending (c : Chunk) : (s.loadChunk c).pending = s.pending := rfl
@[simp] theorem State.loadChunk_answers (c : Chunk) : (s.loadChunk c).answers = s.answers := rfl

/-! ### setSeq -/

@[simp] theorem State.setSeq_cfg (l : List Chunk) : (s.setSeq l).cfg = s.cfg := rfl
@[simp] theorem State.setSeq_status (l : List Chunk) : (s.setSeq l).status = s.status := rfl
@[simp] theorem State.setSeq_arg (l : List Chunk) : (s.setSeq l).arg = s.arg := rfl
@[simp] theorem State.setSeq_result (l : List Chunk) : (s.setSeq l).result = s.result := rfl
@[simp] theorem State.setSeq_input (l : List Chunk) : (s.setSeq l).input = s.input := rfl
@[simp] theorem State.setSeq_output (l : List Chunk) : (s.setSeq l).output = s.output := rfl
@[simp] theorem State.setSeq_tr (l : List Chunk) : (s.setSeq l).tr = s.tr := rfl
@[simp] theorem State.setSeq_cr (l : List Chunk) : (s.setSeq l).cr = s.cr := rfl
@[simp] theorem State.setSeq_seq (l : List Chunk) : (s.setSeq l).seq = l := rfl
@[simp] theorem State.setSeq_pending (l : List Chunk) : (s.setSeq l).pending = s.pending := rfl
@[simp] theorem State.setSeq_answers (l : List Chunk) : (s.setSeq l).answers = s.answers := rfl

/-! ### setPending -/

@[simp] theorem State.setPending_cfg (l : List HostEvent) : (s.setPending l).cfg = s.cfg := rfl
@[simp] theorem State.setPending_status (l : List HostEvent) : (s.setPending l).status = s.status := rfl
@[simp] theorem State.setPending_arg (l : List HostEvent) : (s.setPending l).arg = s.arg := rfl
@[simp] theorem State.setPending_result (l : List HostEvent) : (s.setPending l).result = s.result := rfl
@[simp] theorem State.setPending_input (l : List HostEvent) : (s.setPending l).input = s.input := rfl
@[simp] theorem State.setPending_output (l : List HostEvent) : (s.setPending l).output = s.output := rfl
@[simp] theorem State.setPending_tr (l : List HostEvent) : (s.setPending l).tr = s.tr := rfl
@[simp] theorem State.setPending_cr (l : List HostEvent) : (s.setPending l).cr = s.cr := rfl
@[simp] theorem State.setPending_seq (l : List HostEvent) : (s.setPending l).seq = s.seq := rfl
@[simp] theorem State.setPending_pending (l : List HostEvent) : (s.setPending l).pending = l := rfl
@[simp] theorem State.setPending_answers (l : List HostEvent) : (s.setPending l).answers = s.answers := rfl

/-! ### answer -/

@[simp] theorem State.answer_cfg (a : HostAnswer) : (s.answer a).cfg = s.cfg := rfl
@[simp] theorem State.answer_status (a : HostAnswer) : (s.answer a).status = s.status := rfl
@[simp] theorem State.answer_arg (a : HostAnswer) : (s.answer a).arg = s.arg := rfl
@[simp] theorem State.answer_result (a : HostAnswer) : (s.answer a).result = s.result := rfl
@[simp] theorem State.answer_input (a : HostAnswer) : (s.answer a).input = s.input := rfl
@[simp] theorem State.answer_output (a : HostAnswer) : (s.answer a).output = s.output := rfl
@[simp] theorem State.answer_tr (a : HostAnswer) : (s.answer a).tr = s.tr := rfl
@[simp] theorem State.answer_cr (a : HostAnswer) : (s.answer a).cr = s.cr := rfl
@[simp] theorem State.answer_seq (a : HostAnswer) : (s.answer a).seq = s.seq := rfl
@[simp] theorem State.answer_pending (a : HostAnswer) : (s.answer a).pending = s.pending := rfl
@[simp] theorem State.answer_answers (a : HostAnswer) : (s.answer a).answers = s.answers ++ [a] := rfl

/-! ### raise -/

@[simp] theorem State.raise_cfg (e : ErrorKind) : (s.raise e).cfg = s.cfg := rfl
@[simp] theorem State.raise_status (e : ErrorKind) : (s.raise e).status = e.code := rfl
@[simp] theorem State.raise_arg (e : ErrorKind) : (s.raise e).arg = s.arg := rfl
@[simp] theorem State.raise_result (e : ErrorKind) : (s.raise e).result = s.result := rfl
@[simp] theorem State.raise_input (e : ErrorKind) : (s.raise e).input = s.input := rfl
@[simp] theorem State.raise_output (e : ErrorKind) : (s.raise e).output = s.output := rfl
@[simp] theorem State.raise_tr (e : ErrorKind) : (s.raise e).tr = s.tr := rfl
@[simp] theorem State.raise_cr (e : ErrorKind) : (s.raise e).cr = s.cr := rfl
@[simp] theorem State.raise_seq (e : ErrorKind) : (s.raise e).seq = s.seq := rfl
@[simp] theorem State.raise_pending (e : ErrorKind) : (s.raise e).pending = s.pending := rfl
@[simp] theorem State.raise_answers (e : ErrorKind) : (s.raise e).answers = s.answers := rfl

/-! ### The reset state -/

variable (c : Config)

@[simp] theorem State.resetOf_cfg : (State.resetOf c).cfg = c := rfl
@[simp] theorem State.resetOf_status : (State.resetOf c).status = 0x00#8 := rfl
@[simp] theorem State.resetOf_arg : (State.resetOf c).arg = 0x00000000#32 := rfl
@[simp] theorem State.resetOf_result : (State.resetOf c).result = 0x00000000#32 := rfl
@[simp] theorem State.resetOf_input : (State.resetOf c).input = [] := rfl
@[simp] theorem State.resetOf_output : (State.resetOf c).output = [] := rfl
@[simp] theorem State.resetOf_tr : (State.resetOf c).tr = ⟨false, TypeCode.zero⟩ := rfl
@[simp] theorem State.resetOf_cr : (State.resetOf c).cr = ⟨false, Chunk.zero⟩ := rfl
@[simp] theorem State.resetOf_seq : (State.resetOf c).seq = [] := rfl
@[simp] theorem State.resetOf_pending : (State.resetOf c).pending = [] := rfl
@[simp] theorem State.resetOf_answers : (State.resetOf c).answers = [] := rfl

end Sys2Proof.Machine
end

