-- ==== Sys2Proof/Laws/Ops.lean ====
section
/-! SUPPORT. What each shared operation can do: the two ends of a command, the capacity check, the operand checks, the
reads of IN; and that every memory operation keeps the capacity invariant. -/

namespace Sys2Proof.Machine

variable {s t : State}

/-! ## The two ends of a command -/

@[simp] theorem fail_eq (e : ErrorKind) : fail e s = .next (s.raise e) := rfl

@[simp] theorem done_eq : done s = .next (s.setStatus statusOk) := rfl

theorem ErrorKind.code_ne_ok (e : ErrorKind) : e.code ≠ statusOk := by cases e <;> decide

theorem ErrorKind.code_legal (e : ErrorKind) : e.code ∈ legalStatus := by cases e <;> decide

theorem ErrorKind.code_injective {e f : ErrorKind} (h : e.code = f.code) : e = f := by
  cases e <;> cases f <;> first | rfl | exact absurd h (by decide)

theorem statusOk_legal : statusOk ∈ legalStatus := by decide

/-- All that `emit` can do. -/
theorem emit_eq (n : Nat) (v : Bytes) :
    emit n v s = .next (if s.cfg.maxOut < n then s.raise .capacityExceeded else (s.memWrite v).setStatus statusOk) := by
  unfold emit; split <;> rfl

theorem emit_fits {n : Nat} {v : Bytes} (h : n ≤ s.cfg.maxOut) : emit n v s = .next ((s.memWrite v).setStatus statusOk) := by
  rw [emit_eq, if_neg (by omega)]

theorem emit_over {n : Nat} {v : Bytes} (h : s.cfg.maxOut < n) : emit n v s = .next (s.raise .capacityExceeded) := by
  rw [emit_eq, if_pos h]

/-! ## Operands -/

theorem withType_valid {k} (h : s.tr.valid = true) : withType s k = k s.tr.bytes := by simp [withType, h]

theorem withType_empty {k} (h : s.tr.valid = false) : withType s k = .next (s.raise .operandInvalid) := by
  simp [withType, h]

theorem withChunk_valid {k} (h : s.cr.valid = true) : withChunk s k = k s.cr.chunk := by simp [withChunk, h]

theorem withChunk_empty {k} (h : s.cr.valid = false) : withChunk s k = .next (s.raise .operandInvalid) := by
  simp [withChunk, h]

/-- All that `withType` can do. -/
theorem withType_next {k} (h : withType s k = .next t) :
    (s.tr.valid = true ∧ k s.tr.bytes = .next t) ∨ (s.tr.valid = false ∧ t = s.raise .operandInvalid) := by
  cases hv : s.tr.valid with
  | true => exact .inl ⟨rfl, by rwa [withType_valid hv] at h⟩
  | false => rw [withType_empty hv] at h; cases h; exact .inr ⟨rfl, rfl⟩

/-- All that `withChunk` can do. -/
theorem withChunk_next {k} (h : withChunk s k = .next t) :
    (s.cr.valid = true ∧ k s.cr.chunk = .next t) ∨ (s.cr.valid = false ∧ t = s.raise .operandInvalid) := by
  cases hv : s.cr.valid with
  | true => exact .inl ⟨rfl, by rwa [withChunk_valid hv] at h⟩
  | false => rw [withChunk_empty hv] at h; cases h; exact .inr ⟨rfl, rfl⟩

@[simp] theorem slice_zero (b : Bytes) (n : Nat) : slice b 0 n = b.take n := by simp [slice]

theorem slice_length {b : Bytes} {lo hi : Nat} (h : hi ≤ b.length) : (slice b lo hi).length = hi - lo := by
  simp [slice]; omega

@[simp] theorem memReadAll_eq : s.memReadAll = s.input := by simp [State.memReadAll, State.memRead]

@[simp] theorem memRead_zero (n : Nat) : s.memRead 0 n = s.input.take n := by simp [State.memRead]

@[simp] theorem TypeCode.toBytes_length (t : TypeCode) : t.toBytes.length = 4 := rfl

@[simp] theorem typeOfBytes_toBytes (t : TypeCode) : typeOfBytes t.toBytes = some t := rfl

theorem typeOfBytes_some {b : Bytes} {t : TypeCode} (h : typeOfBytes b = some t) : b = t.toBytes := by
  unfold typeOfBytes at h; split at h
  · cases h; rfl
  · cases h

theorem keyMatch_iff {k : Bytes} {t : TypeCode} : keyMatch k t = true ↔ k = t.toBytes := by
  unfold keyMatch; split
  · simp [TypeCode.toBytes, and_assoc]
  · next h => refine ⟨nofun, fun hk => (h _ _ _ _ hk).elim⟩

theorem keyMatch_toBytes (t u : TypeCode) : keyMatch t.toBytes u = true ↔ t = u := by
  rw [keyMatch_iff]
  refine ⟨fun h => ?_, fun h => h ▸ rfl⟩
  have := congrArg typeOfBytes h
  simpa using this

/-! ## Flags -/

theorem isLetter_iff (b : Byte) : isLetter b = true ↔ LetterByte b := by
  simp [isLetter, LetterByte, BitVec.le_def]

theorem allLetters_iff (t : TypeCode) : t.allLetters = true ↔ ∀ b ∈ t.toBytes, LetterByte b := by
  simp [TypeCode.allLetters, TypeCode.toBytes, isLetter_iff, and_assoc]

theorem propertyBit_eq (b : Byte) : propertyBit b = !(b &&& 0x20#8 == 0x00#8) := by
  revert b; decide

/-! ## The capacity invariant -/

theorem Memory.wf_iff : Memory.wf s = true ↔
    s.input.length ≤ s.cfg.maxIn ∧ s.output.length ≤ s.cfg.maxOut ∧ s.seq.length ≤ s.cfg.maxChunks := by
  simp [Memory.wf, and_assoc]

theorem Memory.wf_resetOf (c : Config) : Memory.wf (State.resetOf c) = true := by simp [Memory.wf]

theorem Memory.wf_setStatus (v : Byte) (h : Memory.wf s = true) : Memory.wf (s.setStatus v) = true := h

theorem Memory.wf_setArg (v : Word) (h : Memory.wf s = true) : Memory.wf (s.setArg v) = true := h

theorem Memory.wf_setResult (v : Word) (h : Memory.wf s = true) : Memory.wf (s.setResult v) = true := h

theorem Memory.wf_loadType (u : TypeCode) (h : Memory.wf s = true) : Memory.wf (s.loadType u) = true := h

theorem Memory.wf_loadChunk (c : Chunk) (h : Memory.wf s = true) : Memory.wf (s.loadChunk c) = true := h

theorem Memory.wf_setInput {b : Bytes} (hb : b.length ≤ s.cfg.maxIn) (h : Memory.wf s = true) :
    Memory.wf (s.setInput b) = true := by
  rw [Memory.wf_iff] at h ⊢; exact ⟨hb, h.2⟩

theorem Memory.wf_memWrite {v : Bytes} (hv : v.length ≤ s.cfg.maxOut) (h : Memory.wf s = true) :
    Memory.wf (s.memWrite v) = true := by
  rw [Memory.wf_iff] at h ⊢; exact ⟨h.1, hv, h.2.2⟩

theorem Memory.wf_setSeq {l : List Chunk} (hl : l.length ≤ s.cfg.maxChunks) (h : Memory.wf s = true) :
    Memory.wf (s.setSeq l) = true := by
  rw [Memory.wf_iff] at h ⊢; exact ⟨h.1, h.2.1, hl⟩

end Sys2Proof.Machine
end

