-- ==== Sys2Proof/Laws/Crc.lean ====
section
/-! SUPPORT. The checksum: it is linear in its register, so the table form is the bitwise form; each bit step is injective, so
a changed byte is never lost. -/

namespace Sys2Proof.Machine

theorem crcBit_xor (a b : Word) : crcBit (a ^^^ b) = crcBit a ^^^ crcBit b := by
  unfold crcBit
  cases ha : a.getLsbD 0 <;> cases hb : b.getLsbD 0 <;>
    simp only [BitVec.getLsbD_xor, ha, hb, BitVec.ushiftRight_xor_distrib, Bool.xor_false, Bool.xor_true, Bool.not_false,
      Bool.not_true, Bool.false_eq_true, if_true, if_false] <;> (ac_nf; try simp)

theorem crcBits_xor (k : Nat) (a b : Word) : crcBits k (a ^^^ b) = crcBits k a ^^^ crcBits k b := by
  induction k generalizing a b with
  | zero => rfl
  | succ k ih => simp only [crcBits, crcBit_xor, ih]

/-- The bit shifted out shows in the top bit of the result, since the polynomial's top bit is 1. -/
theorem crcBit_top (c : Word) : (crcBit c).getLsbD 31 = c.getLsbD 0 := by
  unfold crcBit
  cases h : c.getLsbD 0 <;> simp

theorem crcBit_injective {a b : Word} (h : crcBit a = crcBit b) : a = b := by
  have h0 : a.getLsbD 0 = b.getLsbD 0 := by rw [← crcBit_top a, ← crcBit_top b, h]
  have hs : a >>> 1 = b >>> 1 := by
    unfold crcBit at h
    rw [h0] at h
    split at h
    · have := congrArg (· ^^^ 0xEDB88320#32) h
      simpa [BitVec.xor_assoc] using this
    · exact h
  apply BitVec.eq_of_getLsbD_eq
  intro i hi
  rcases Nat.eq_zero_or_pos i with rfl | hp
  · exact h0
  · have := congrArg (fun x => BitVec.getLsbD x (i - 1)) hs
    simpa [BitVec.getLsbD_ushiftRight, show 1 + (i - 1) = i by omega] using this

theorem crcBits_injective (k : Nat) {a b : Word} (h : crcBits k a = crcBits k b) : a = b := by
  induction k generalizing a b with
  | zero => exact h
  | succ k ih => exact crcBit_injective (ih h)

/-- The same byte taken in keeps two registers apart. -/
theorem crcByte_injective_register {c d : Word} (b : Byte) (h : crcByte c b = crcByte d b) : c = d :=
  (BitVec.xor_left_inj _).1 (crcBits_injective 8 h)

/-- Two bytes taken into one register keep it apart. -/
theorem crcByte_injective_byte {c : Word} {a b : Byte} (h : crcByte c a = crcByte c b) : a = b := by
  have h1 := (BitVec.xor_right_inj _).1 (crcBits_injective 8 h)
  have h2 := congrArg (BitVec.setWidth 8) h1
  simpa using h2

theorem foldl_crcByte_injective (m : Bytes) {c d : Word} (h : m.foldl crcByte c = m.foldl crcByte d) : c = d := by
  induction m generalizing c d with
  | nil => exact h
  | cons b m ih => exact crcByte_injective_register b (ih h)

/-- Two messages that differ in exactly one byte have different checksums. -/
theorem crc32_one_byte {before after : Bytes} {a b : Byte}
    (h : crc32 (before ++ a :: after) = crc32 (before ++ b :: after)) : a = b := by
  have h1 := (BitVec.xor_left_inj _).1 h
  simp only [List.foldl_append, List.foldl_cons] at h1
  exact crcByte_injective_byte (foldl_crcByte_injective after h1)

/-- With its low `k` bits clear, `k` bit steps are a plain shift. -/
theorem crcBits_shift (k : Nat) (c : Word) (h : ∀ i, i < k → c.getLsbD i = false) : crcBits k c = c >>> k := by
  induction k generalizing c with
  | zero => simp [crcBits]
  | succ k ih =>
    have hb : crcBit c = c >>> 1 := by
      unfold crcBit; rw [if_neg (by simpa using h 0 (by omega))]
    rw [crcBits, hb, ih]
    · rw [← BitVec.shiftRight_add, Nat.add_comm]
    · intro i hi
      rw [BitVec.getLsbD_ushiftRight]; exact h _ (by omega)

/-- A register is its low byte XOR the rest. -/
theorem low_byte_xor_rest (c : Word) :
    c = (c.extractLsb' 0 8).zeroExtend 32 ^^^ (c &&& 0xFFFFFF00#32) := by
  apply BitVec.eq_of_getLsbD_eq
  intro i hi
  interval_cases i <;> simp

theorem crcTableByte_eq (c : Word) (b : Byte) : crcTableByte c b = crcByte c b := by
  unfold crcTableByte crcByte crcTable
  generalize hx : c ^^^ b.zeroExtend 32 = x
  conv_rhs => rw [low_byte_xor_rest x, crcBits_xor]
  congr 1
  rw [crcBits_shift]
  · apply BitVec.eq_of_getLsbD_eq
    intro i hi
    subst hx
    simp only [BitVec.getLsbD_ushiftRight, BitVec.getLsbD_and, BitVec.getLsbD_xor]
    interval_cases i <;> simp
  · intro i hi
    interval_cases i <;> simp

end Sys2Proof.Machine
end

