-- ==== Sys2Proof/Laws/PerInstr.lean ====
section
/-! SUPPORT. The family OpcodeRow: each command is well-formed and its command word decodes to it, whatever bytes follow. -/

namespace Sys2Proof.Laws.OpcodeRow

/-- What the opcode table says of one command. -/
def Statement (i : Instr) : Prop :=
  i.wellFormed = true ∧ decode (encode i) = .ok i ∧ ∀ rest : Bytes, decodeBytes (encode i :: rest) = .ok (i, rest)

theorem crc32 : Statement .crc32 := ⟨rfl, rfl, fun _ => rfl⟩
theorem u32Dec : Statement .u32Dec := ⟨rfl, rfl, fun _ => rfl⟩
theorem u32Enc : Statement .u32Enc := ⟨rfl, rfl, fun _ => rfl⟩
theorem typeFromStr : Statement .typeFromStr := ⟨rfl, rfl, fun _ => rfl⟩
theorem typeFromBytes : Statement .typeFromBytes := ⟨rfl, rfl, fun _ => rfl⟩
theorem typeRead : Statement .typeRead := ⟨rfl, rfl, fun _ => rfl⟩
theorem typeIsValid : Statement .typeIsValid := ⟨rfl, rfl, fun _ => rfl⟩
theorem typeIsCritical : Statement .typeIsCritical := ⟨rfl, rfl, fun _ => rfl⟩
theorem typeIsPublic : Statement .typeIsPublic := ⟨rfl, rfl, fun _ => rfl⟩
theorem typeIsReservedBitValid : Statement .typeIsReservedBitValid := ⟨rfl, rfl, fun _ => rfl⟩
theorem typeIsSafeToCopy : Statement .typeIsSafeToCopy := ⟨rfl, rfl, fun _ => rfl⟩
theorem chunkNew : Statement .chunkNew := ⟨rfl, rfl, fun _ => rfl⟩
theorem chunkParse : Statement .chunkParse := ⟨rfl, rfl, fun _ => rfl⟩
theorem chunkLength : Statement .chunkLength := ⟨rfl, rfl, fun _ => rfl⟩
theorem chunkType : Statement .chunkType := ⟨rfl, rfl, fun _ => rfl⟩
theorem chunkData : Statement .chunkData := ⟨rfl, rfl, fun _ => rfl⟩
theorem chunkCrc : Statement .chunkCrc := ⟨rfl, rfl, fun _ => rfl⟩
theorem chunkDataAsString : Statement .chunkDataAsString := ⟨rfl, rfl, fun _ => rfl⟩
theorem chunkSerialize : Statement .chunkSerialize := ⟨rfl, rfl, fun _ => rfl⟩
theorem pngClear : Statement .pngClear := ⟨rfl, rfl, fun _ => rfl⟩
theorem pngParse : Statement .pngParse := ⟨rfl, rfl, fun _ => rfl⟩
theorem pngAppend : Statement .pngAppend := ⟨rfl, rfl, fun _ => rfl⟩
theorem pngFind : Statement .pngFind := ⟨rfl, rfl, fun _ => rfl⟩
theorem pngRemoveFirst : Statement .pngRemoveFirst := ⟨rfl, rfl, fun _ => rfl⟩
theorem pngCount : Statement .pngCount := ⟨rfl, rfl, fun _ => rfl⟩
theorem pngGet : Statement .pngGet := ⟨rfl, rfl, fun _ => rfl⟩
theorem pngSerialize : Statement .pngSerialize := ⟨rfl, rfl, fun _ => rfl⟩
theorem pngSignature : Statement .pngSignature := ⟨rfl, rfl, fun _ => rfl⟩

end Sys2Proof.Laws.OpcodeRow
end

