-- ==== Sys2Proof/Laws/Wire.lean ====
section
/-! SUPPORT. The wire format: the codec, the frame and its parser, well-formed UTF-8, the container stream and its parser,
first-match removal. -/

namespace Sys2Proof.Machine

/-! ## The codec -/

@[simp] theorem enc32_length (v : Word) : (enc32 v).length = 4 := rfl

theorem be32_cons (b0 b1 b2 b3 : Byte) (rest : Bytes) :
    be32 (b0 :: b1 :: b2 :: b3 :: rest) = some (b0 ++ b1 ++ b2 ++ b3) := by
  simp only [be32]
  congr 1
  apply BitVec.eq_of_getLsbD_eq
  intro i hi
  simp only [BitVec.getLsbD_append]
  interval_cases i <;> simp

theorem append_toNat (b0 b1 b2 b3 : Byte) : (b0 ++ b1 ++ b2 ++ b3).toNat = bigEndian b0 b1 b2 b3 := by
  have h0 := b0.isLt; have h1 := b1.isLt; have h2 := b2.isLt; have h3 := b3.isLt
  simp only [BitVec.toNat_append, bigEndian]
  rw [← Nat.shiftLeft_add_eq_or_of_lt h1, ← Nat.shiftLeft_add_eq_or_of_lt h2, ← Nat.shiftLeft_add_eq_or_of_lt h3]
  simp only [Nat.shiftLeft_eq]
  omega

/-- The number `be32` reads. -/
theorem be32_toNat {b0 b1 b2 b3 : Byte} {rest : Bytes} {v : Word} (h : be32 (b0 :: b1 :: b2 :: b3 :: rest) = some v) :
    v.toNat = bigEndian b0 b1 b2 b3 := by
  rw [be32_cons] at h; cases h; exact append_toNat ..

theorem enc32_append (b0 b1 b2 b3 : Byte) : enc32 (b0 ++ b1 ++ b2 ++ b3) = [b0, b1, b2, b3] := by
  simp only [enc32, List.cons.injEq, and_true]
  refine ⟨?_, ?_, ?_, ?_⟩ <;>
    (apply BitVec.eq_of_getLsbD_eq; intro i hi
     simp only [BitVec.getLsbD_append, BitVec.getLsbD_extractLsb']
     interval_cases i <;> simp)

theorem be32_enc32_append (v : Word) (rest : Bytes) : be32 (enc32 v ++ rest) = some v := by
  simp only [enc32, List.cons_append, List.nil_append, be32_cons, Option.some.injEq]
  apply BitVec.eq_of_getLsbD_eq
  intro i hi
  simp only [BitVec.getLsbD_append, BitVec.getLsbD_extractLsb']
  interval_cases i <;> simp

/-- Four bytes are the encoding of the number `be32` reads from them. -/
theorem enc32_of_be32 {b : Bytes} {v : Word} (hl : b.length = 4) (h : be32 b = some v) : enc32 v = b := by
  match b, hl with
  | [b0, b1, b2, b3], _ => rw [be32_cons] at h; cases h; exact enc32_append ..

theorem be32_isSome {b : Bytes} (hl : 4 ≤ b.length) : ∃ v, be32 b = some v := by
  match b, hl with
  | _ :: _ :: _ :: _ :: _, _ => exact ⟨_, be32_cons ..⟩

theorem typeOfBytes_isSome {b : Bytes} (hl : b.length = 4) : ∃ t, typeOfBytes b = some t := by
  match b, hl with
  | [_, _, _, _], _ => exact ⟨_, rfl⟩

/-! ## The frame -/

@[simp] theorem frame_length (c : Chunk) : (frame c).length = 12 + c.data.length := by
  simp [frame]; omega

/-- A slice inside the first part of an append. -/
theorem slice_append_left {a b : Bytes} {lo hi : Nat} (h : hi ≤ a.length) : slice (a ++ b) lo hi = slice a lo hi := by
  simp only [slice, List.drop_append, List.take_append, List.length_drop]
  rw [show hi - lo - (a.length - lo) = 0 by omega]; simp

/-- The slice that is the middle part of an append. -/
theorem slice_append_mid {a b c : Bytes} {lo hi : Nat} (hlo : a.length = lo) (hhi : lo + b.length = hi) :
    slice (a ++ b ++ c) lo hi = b := by
  subst hlo; subst hhi; simp [slice]

/-- All that a successful parse says of the buffer (42_chunk.md R71). -/
theorem frameParse_ok {b : Bytes} {c : Chunk} {n : Nat} (h : frameParse b = .ok (c, n)) :
    12 + c.length.toNat ≤ b.length ∧ n = 12 + c.length.toNat ∧ be32 (slice b 0 4) = some c.length ∧
      typeOfBytes (slice b 4 8) = some c.type ∧ c.type.allLetters = true ∧
      c.data = slice b 8 (8 + c.length.toNat) ∧ be32 (slice b (8 + c.length.toNat) (12 + c.length.toNat)) = some c.crc ∧
      crc32 (c.type.toBytes ++ c.data) = c.crc := by
  unfold frameParse at h
  split at h
  · cases h
  split at h
  · next l t hl ht =>
    split at h
    · cases h
    next hlet =>
    split at h
    · cases h
    next hlen =>
    simp only at h
    split at h
    · next cr hcr =>
      split at h
      · cases h
      next hsum =>
      cases h
      exact ⟨Nat.not_lt.1 hlen, rfl, hl, ht, by simpa using hlet, rfl, hcr, by simpa using hsum⟩
    · cases h
  · cases h

theorem slice_split (b : Bytes) {i j k : Nat} (hij : i ≤ j) (hjk : j ≤ k) : slice b i j ++ slice b j k = slice b i k := by
  simp only [slice]
  rw [show k - i = (j - i) + (k - j) by omega, List.take_add, List.drop_drop, show i + (j - i) = j by omega]

/-- What a parse accepts is a valid record's frame at the front of the buffer. -/
theorem frameParse_ok_frame {b : Bytes} {c : Chunk} {n : Nat} (h : frameParse b = .ok (c, n)) :
    c.Valid ∧ n = 12 + c.length.toNat ∧ n ≤ b.length ∧ frame c = b.take n := by
  obtain ⟨hlen, rfl, hl, ht, hlet, hd, hcr, hsum⟩ := frameParse_ok h
  have e1 := enc32_of_be32 (by rw [slice_length (by omega)]) hl
  have e2 := typeOfBytes_some ht
  have e3 := enc32_of_be32 (by rw [slice_length (by omega)]; omega) hcr
  refine ⟨⟨?_, hlet, hsum.symm⟩, rfl, hlen, ?_⟩
  · rw [hd, slice_length (by omega)]; omega
  · rw [frame, e1, ← e2, hd, e3, slice_split _ (by omega) (by omega), slice_split _ (by omega) (by omega),
      slice_split _ (by omega) (by omega), slice_zero]

/-- A buffer laid out as a frame, with any stored checksum: the parse reads the fields back and compares the checksum. -/
theorem frameParse_layout {l cr : Word} {t : TypeCode} {d rest : Bytes} (hl : l.toNat = d.length) (ht : t.allLetters = true) :
    frameParse (enc32 l ++ t.toBytes ++ d ++ enc32 cr ++ rest) =
      if crc32 (t.toBytes ++ d) ≠ cr then .error .checksumMismatch else .ok (⟨l, t, d, cr⟩, 12 + l.toNat) := by
  have hn : (enc32 l ++ t.toBytes ++ d ++ enc32 cr ++ rest).length = 12 + d.length + rest.length := by
    simp; omega
  have s1 : slice (enc32 l ++ t.toBytes ++ d ++ enc32 cr ++ rest) 0 4 = enc32 l := by
    simp only [List.append_assoc]; exact slice_append_mid (a := []) rfl rfl
  have s2 : slice (enc32 l ++ t.toBytes ++ d ++ enc32 cr ++ rest) 4 8 = t.toBytes := by
    simp only [List.append_assoc]; rw [← List.append_assoc]; exact slice_append_mid rfl rfl
  have s3 : slice (enc32 l ++ t.toBytes ++ d ++ enc32 cr ++ rest) 8 (8 + d.length) = d := by
    rw [List.append_assoc]; exact slice_append_mid rfl rfl
  have s4 : slice (enc32 l ++ t.toBytes ++ d ++ enc32 cr ++ rest) (8 + d.length) (12 + d.length) = enc32 cr :=
    slice_append_mid (by simp; omega) (by simp; omega)
  have b1 := be32_enc32_append l []
  have b2 := be32_enc32_append cr []
  rw [List.append_nil] at b1 b2
  unfold frameParse
  simp only [hl]
  rw [if_neg (by omega), s1, s2, b1, typeOfBytes_toBytes]
  simp only [ht, hl, s3, s4, b2]
  rw [if_neg (by simp), if_neg (by omega)]

/-- Parsing a valid record's frame gives it back, whatever follows. -/
theorem frameParse_frame {c : Chunk} (rest : Bytes) (h : c.Valid) : frameParse (frame c ++ rest) = .ok (c, 12 + c.length.toNat) := by
  obtain ⟨hl, ht, hs⟩ := h
  rw [frame, frameParse_layout hl ht, if_neg (by simpa using hs.symm)]

/-- FrameParse's kinds of failure. -/
theorem frameParse_error {b : Bytes} {e : ErrorKind} (h : frameParse b = .error e) :
    e = .truncatedBuffer ∨ e = .invalidTypeCode ∨ e = .checksumMismatch := by
  unfold frameParse at h
  split at h
  · cases h; simp
  split at h
  · split at h
    · cases h; simp
    split at h
    · cases h; simp
    simp only at h
    split at h
    · split at h
      · cases h; simp
      · cases h
    · cases h; simp
  · cases h; simp

theorem newChunk_valid {t : TypeCode} {d : Bytes} (ht : t.allLetters = true) (hd : d.length < 2 ^ 32) : (newChunk t d).Valid := by
  refine ⟨?_, ht, rfl⟩
  simp only [newChunk, BitVec.toNat_ofNat]
  exact Nat.mod_eq_of_lt hd

/-! ## UTF-8 -/

/-- All that `afterRow` can do: one byte for each range of the row, each in its range. -/
theorem afterRow_iff (row : List (Byte × Byte)) (d r : Bytes) :
    afterRow row d = some r ↔
      ∃ p, d = p ++ r ∧ List.Forall₂ (fun (x : Byte × Byte) (b : Byte) => x.1.toNat ≤ b.toNat ∧ b.toNat ≤ x.2.toNat) row p := by
  induction row generalizing d with
  | nil => simp [afterRow]
  | cons x row ih =>
    obtain ⟨lo, hi⟩ := x
    cases d with
    | nil =>
      refine ⟨nofun, ?_⟩
      rintro ⟨p, hp, hf⟩
      cases hf; simp at hp
    | cons b d =>
      simp only [afterRow]
      split
      · next hb =>
        rw [ih]
        simp only [Bool.and_eq_true, decide_eq_true_eq, BitVec.le_def] at hb
        constructor
        · rintro ⟨p, rfl, hf⟩; exact ⟨b :: p, rfl, .cons hb hf⟩
        · rintro ⟨p, hp, hf⟩
          cases hf with
          | cons h1 h2 => simp at hp; exact ⟨_, hp.2, h2⟩
      · next hb =>
        simp only [Bool.and_eq_true, decide_eq_true_eq, BitVec.le_def] at hb
        refine ⟨nofun, ?_⟩
        rintro ⟨p, hp, hf⟩
        cases hf with
        | cons h1 h2 => simp at hp; exact absurd (hp.1 ▸ h1) hb

/-! ## The container -/

@[simp] theorem containerStream_nil : containerStream [] = sig := rfl

theorem containerStream_snoc (l : List Chunk) (c : Chunk) : containerStream (l ++ [c]) = containerStream l ++ frame c := by
  simp [containerStream]

theorem startsWithSig_iff (b : Bytes) : startsWithSig b = true ↔ b.take 8 = sig := by
  simp only [startsWithSig, slice_zero, Bool.and_eq_true, decide_eq_true_eq, beq_iff_eq]
  refine ⟨And.right, fun h => ⟨?_, h⟩⟩
  have := congrArg List.length h
  simp [sig] at this; omega

/-- More fuel than bytes changes nothing, and the loop reads the frames of valid records one by one. -/
theorem framesParse_frames {l : List Chunk} (hl : ∀ c ∈ l, c.Valid) (rest : Bytes) (fuel : Nat)
    (hf : (l.flatMap frame ++ rest).length ≤ fuel) :
    framesParse fuel (l.flatMap frame ++ rest) =
      match framesParse (fuel - l.length) rest with
      | .error e => .error e
      | .ok l' => .ok (l ++ l') := by
  induction l generalizing fuel with
  | nil => simp; split <;> simp_all
  | cons c l ih =>
    have hc := hl c (by simp)
    have hfl : (frame c).length = 12 + c.length.toNat := by rw [frame_length, hc.1]
    have hlen : ((c :: l).flatMap frame ++ rest).length = 12 + c.length.toNat + (l.flatMap frame ++ rest).length := by
      simp only [List.flatMap_cons, List.append_assoc, List.length_append] at hfl ⊢; omega
    obtain ⟨f, rfl⟩ : ∃ f, fuel = f + 1 := ⟨fuel - 1, by omega⟩
    have hcons : (c :: l).flatMap frame ++ rest = frame c ++ (l.flatMap frame ++ rest) := by simp
    have hp := frameParse_frame (l.flatMap frame ++ rest) hc
    have hd : (frame c ++ (l.flatMap frame ++ rest)).drop (12 + c.length.toNat) = l.flatMap frame ++ rest := by
      rw [← hfl, List.drop_left]
    rw [hcons]
    generalize hB : frame c ++ (l.flatMap frame ++ rest) = B at hp hd
    have hne : B ≠ [] := by
      intro h0; rw [h0] at hB; have := congrArg List.length hB; simp at this
    obtain ⟨x, B', rfl⟩ := List.exists_cons_of_ne_nil hne
    simp only [framesParse, hp, hd]
    rw [ih (fun d hd => hl d (by simp [hd])) f (by omega)]
    have : f + 1 - (c :: l).length = f - l.length := by simp
    rw [this]
    cases framesParse (f - l.length) rest <;> rfl

/-- All that a successful loop says of the bytes. -/
theorem framesParse_ok {fuel : Nat} {b : Bytes} {l : List Chunk} (h : framesParse fuel b = .ok l) :
    (∀ c ∈ l, c.Valid) ∧ b = l.flatMap frame := by
  induction fuel generalizing b l with
  | zero =>
    cases b with
    | nil => simp only [framesParse] at h; cases h; simp
    | cons x b => simp [framesParse] at h
  | succ f ih =>
    cases b with
    | nil => simp only [framesParse] at h; cases h; simp
    | cons x b =>
      simp only [framesParse] at h
      split at h
      · cases h
      next c n hp =>
      split at h
      · cases h
      next l' hl' =>
      cases h
      obtain ⟨hv, rfl, hn, hfr⟩ := frameParse_ok_frame hp
      obtain ⟨hv', hb'⟩ := ih hl'
      refine ⟨by simpa using ⟨hv, hv'⟩, ?_⟩
      rw [List.flatMap_cons, hfr, ← hb', List.take_append_drop]

theorem framesParse_error {fuel : Nat} {b : Bytes} {e : ErrorKind} (h : framesParse fuel b = .error e) :
    e = .truncatedBuffer ∨ e = .invalidTypeCode ∨ e = .checksumMismatch := by
  induction fuel generalizing b with
  | zero =>
    cases b with
    | nil => simp [framesParse] at h
    | cons x b => simp only [framesParse] at h; cases h; simp
  | succ f ih =>
    cases b with
    | nil => simp [framesParse] at h
    | cons x b =>
      simp only [framesParse] at h
      split at h
      · next hp => cases h; exact frameParse_error hp
      split at h
      · next hp => cases h; exact ih hp
      · cases h

theorem containerParse_error {b : Bytes} {e : ErrorKind} (h : containerParse b = .error e) :
    e = .invalidSignature ∨ e = .truncatedBuffer ∨ e = .invalidTypeCode ∨ e = .checksumMismatch := by
  unfold containerParse at h
  split at h
  · cases h; simp
  · exact .inr (framesParse_error h)

/-- On a stream of valid records followed by anything, the parse goes on with what follows. -/
theorem containerParse_stream {l : List Chunk} (hl : ∀ c ∈ l, c.Valid) (rest : Bytes) :
    containerParse (containerStream l ++ rest) =
      match framesParse ((containerStream l ++ rest).length - l.length) rest with
      | .error e => .error e
      | .ok l' => .ok (l ++ l') := by
  have hs : startsWithSig (containerStream l ++ rest) = true := by
    rw [startsWithSig_iff]; simp [containerStream, sig]
  have hd : (containerStream l ++ rest).drop 8 = l.flatMap frame ++ rest := by simp [containerStream, sig]
  unfold containerParse
  rw [hs, hd]
  simp only [Bool.not_true, Bool.false_eq_true, if_false]
  exact framesParse_frames hl rest _ (by simp [containerStream])

/-- Everything a parsed record holds was in the buffer. -/
theorem data_length_le_stream {l : List Chunk} {c : Chunk} (hc : c ∈ l) : c.data.length ≤ (containerStream l).length := by
  have : (frame c).length ≤ (l.flatMap frame).length := by
    obtain ⟨a, b, rfl⟩ := List.append_of_mem hc; simp; omega
  rw [frame_length] at this
  simp only [containerStream, List.length_append]; omega

/-! ## First match -/

theorem removeFirst_append {k : Bytes} {before after : List Chunk} {c : Chunk}
    (hb : ∀ d ∈ before, keyMatch k d.type = false) (hc : keyMatch k c.type = true) :
    removeFirst k (before ++ c :: after) = some (before ++ after) := by
  induction before with
  | nil => simp [removeFirst, hc]
  | cons d before ih =>
    simp only [List.cons_append, removeFirst, hb d (by simp)]
    rw [ih fun x hx => hb x (by simp [hx])]; simp

theorem removeFirst_none {k : Bytes} {l : List Chunk} (h : ∀ d ∈ l, keyMatch k d.type = false) : removeFirst k l = none := by
  induction l with
  | nil => rfl
  | cons d l ih => simp only [removeFirst, h d (by simp)]; rw [ih fun x hx => h x (by simp [hx])]; simp

/-- All that `removeFirst` can do. -/
theorem removeFirst_some {k : Bytes} {l l' : List Chunk} (h : removeFirst k l = some l') :
    ∃ before c after, l = before ++ c :: after ∧ l' = before ++ after ∧ keyMatch k c.type = true ∧
      ∀ d ∈ before, keyMatch k d.type = false := by
  induction l generalizing l' with
  | nil => cases h
  | cons d l ih =>
    simp only [removeFirst] at h
    split at h
    · next hm => cases h; exact ⟨[], d, l, rfl, rfl, hm, by simp⟩
    · next hm =>
      obtain ⟨m, hr, rfl⟩ := Option.map_eq_some_iff.1 h
      obtain ⟨b, c, a, rfl, rfl, hc, hb⟩ := ih hr
      exact ⟨d :: b, c, a, rfl, rfl, hc, by simpa [hm] using hb⟩

end Sys2Proof.Machine
end

