-- ==== Sys2Proof/Laws/Step.lean ====
section
/-! SUPPORT. What a step and a command can do, said once: the host event a step takes, and the two ways a command ends. -/

namespace Sys2Proof.Machine

variable {s t : State}

theorem step_idle (h : s.pending = []) : step s = .next s := by simp [step, takeEvent, h]

theorem step_event {e : HostEvent} {rest : List HostEvent} (h : s.pending = e :: rest) :
    step s = hostEvent e (s.setPending rest) := by simp [step, takeEvent, h]

theorem hostCmd_assigned {op : Byte} {i : Instr} (h : decode op = .ok i) : hostCmd op s = exec i s := by simp [hostCmd, h]

theorem hostCmd_unassigned {op : Byte} {r : DecodeReject} (h : decode op = .error r) :
    hostCmd op s = .next (s.raise .illegalCommand) := by simp [hostCmd, h]

theorem hostWriteIn_fits {b : Bytes} (h : b.length ≤ s.cfg.maxIn) : hostWriteIn b s = .next (s.setInput b) := by
  simp [hostWriteIn, HostEvent.wellFormed, h]

theorem hostWriteIn_over {b : Bytes} (h : s.cfg.maxIn < b.length) : hostWriteIn b s = .refused .inputOverCapacity := by
  simp [hostWriteIn, HostEvent.wellFormed, Nat.not_le.2 h]

/-- All a command can do at its end: it raises an error, or it completes with OK in STATUS. -/
theorem exec_raises_or_completes {i : Instr} (h : exec i s = .next t) : (∃ e, t = s.raise e) ∨ t.status = statusOk := by
  cases i <;>
    simp only [exec, execCrc32, execU32Dec, execU32Enc, execTypeFromStr, execTypeFromBytes, typeFromInput, execTypeRead,
      execTypeIsValid, execTypeIsCritical, execTypeIsPublic, execTypeIsReservedBitValid, execTypeIsSafeToCopy, typeTest,
      execChunkNew, execChunkParse, execChunkLength, execChunkType, execChunkData, execChunkCrc, execChunkDataAsString,
      execChunkSerialize, execPngClear, execPngParse, execPngAppend, execPngFind, execPngRemoveFirst, execPngCount,
      execPngGet, execPngSerialize, execPngSignature, withType, withChunk, emit, done_eq, fail_eq] at h <;>
    (repeat' split at h) <;> cases h <;> first | exact .inr rfl | exact .inl ⟨_, rfl⟩

/-- Every command answers a next state. -/
theorem exec_is_next (i : Instr) (s : State) : ∃ t, exec i s = .next t := by
  cases i <;>
    simp only [exec, execCrc32, execU32Dec, execU32Enc, execTypeFromStr, execTypeFromBytes, typeFromInput, execTypeRead,
      execTypeIsValid, execTypeIsCritical, execTypeIsPublic, execTypeIsReservedBitValid, execTypeIsSafeToCopy, typeTest,
      execChunkNew, execChunkParse, execChunkLength, execChunkType, execChunkData, execChunkCrc, execChunkDataAsString,
      execChunkSerialize, execPngClear, execPngParse, execPngAppend, execPngFind, execPngRemoveFirst, execPngCount,
      execPngGet, execPngSerialize, execPngSignature, withType, withChunk, emit, done_eq, fail_eq] <;>
    (repeat' split) <;> exact ⟨_, rfl⟩

/-- What a command leaves alone on every path: the parameters, the host's own registers and the host beside the block. -/
theorem exec_host_side {i : Instr} (h : exec i s = .next t) :
    t.cfg = s.cfg ∧ t.arg = s.arg ∧ t.input = s.input ∧ t.pending = s.pending ∧ t.answers = s.answers := by
  cases i <;>
    simp only [exec, execCrc32, execU32Dec, execU32Enc, execTypeFromStr, execTypeFromBytes, typeFromInput, execTypeRead,
      execTypeIsValid, execTypeIsCritical, execTypeIsPublic, execTypeIsReservedBitValid, execTypeIsSafeToCopy, typeTest,
      execChunkNew, execChunkParse, execChunkLength, execChunkType, execChunkData, execChunkCrc, execChunkDataAsString,
      execChunkSerialize, execPngClear, execPngParse, execPngAppend, execPngFind, execPngRemoveFirst, execPngCount,
      execPngGet, execPngSerialize, execPngSignature, withType, withChunk, emit, done_eq, fail_eq] at h <;>
    (repeat' split at h) <;> cases h <;> exact ⟨rfl, rfl, rfl, rfl, rfl⟩

/-- A successful container parse: its records are valid and the buffer is their stream. -/
theorem containerParse_ok {b : Bytes} {l : List Chunk} (h : containerParse b = .ok l) :
    (∀ c ∈ l, c.Valid) ∧ b = containerStream l := by
  unfold containerParse at h
  split at h
  · cases h
  next hs =>
  simp only [Bool.not_eq_true', Bool.not_eq_false] at hs
  obtain ⟨hv, hb⟩ := framesParse_ok h
  exact ⟨hv, by rw [containerStream, ← hb, ← (startsWithSig_iff b).1 hs, List.take_append_drop]⟩

end Sys2Proof.Machine
end

