-- ==== Sys2Proof/Laws/Text.lean ====
section
/-! SUPPORT. The host-program text: hexadecimal digits read back, and a mnemonic names its own command. -/

namespace Sys2Proof.Machine

theorem hexDigit_hexChar : ∀ n, n < 16 → hexDigit (hexChar n) = some n := by decide

theorem hexPairs_hexByte (b : Bytes) : hexPairs (b.flatMap hexByte) = some (b, []) := by
  induction b with
  | nil => rfl
  | cons x b ih =>
    have := x.isLt
    simp only [List.flatMap_cons, hexByte, List.cons_append, List.nil_append, hexPairs,
      hexDigit_hexChar (x.toNat / 16) (by omega), hexDigit_hexChar (x.toNat % 16) (by omega)]
    rw [ih]
    have hx : 16 * (x.toNat / 16) + x.toNat % 16 = x.toNat := by omega
    simp [hx]

theorem instrOfName_mnemonic (i : Instr) : instrOfName (mnemonic i).toList = some i := by cases i <;> decide +kernel

theorem mem_allInstrs (i : Instr) : i ∈ allInstrs := by cases i <;> decide

end Sys2Proof.Machine
end

