-- ==== Sys2Proof/Tests/Slice0.lean ====
section
/-! SUPPORT. The model's own tests: ill-formed terms refused, every command word written out, vectors of 95_test_vectors.md
(the source of each expected result is its V number or its rule), and a state for every statement that has hypotheses. -/

namespace Sys2Proof.Tests

open Sys2Proof.Machine

/-! ## Ill-formed terms are refused (00_scope.md R8, 30_encoding.md R50) -/

theorem smoke_maxIn_below : Config.wellFormed ⟨19, 20, 1⟩ = false := by decide
theorem smoke_maxIn_above : Config.wellFormed ⟨2 ^ 32, 20, 1⟩ = false := by decide
theorem smoke_maxOut_below : Config.wellFormed ⟨20, 19, 1⟩ = false := by decide
theorem smoke_maxOut_above : Config.wellFormed ⟨20, 2 ^ 32, 1⟩ = false := by decide
theorem smoke_maxChunks_below : Config.wellFormed ⟨20, 20, 0⟩ = false := by decide
theorem smoke_maxChunks_above : Config.wellFormed ⟨20, 20, 2 ^ 32⟩ = false := by decide
theorem smoke_config_edges : Config.wellFormed ⟨20, 2 ^ 32 - 1, 1⟩ = true := by decide
theorem smoke_writeIn_over : (HostEvent.writeIn (List.replicate 21 0x00#8)).wellFormed ⟨20, 20, 1⟩ = false := by decide
theorem smoke_writeIn_fits : (HostEvent.writeIn (List.replicate 20 0x00#8)).wellFormed ⟨20, 20, 1⟩ = true := by decide

/-! ## Every command word, F in bits 7..4 and N in bits 3..0 (30_encoding.md R42) -/

theorem test_decode_family0 :
    decodeTableWord 8 0b00000001 = some .crc32 ∧ decodeTableWord 8 0b00000010 = some .u32Dec ∧
    decodeTableWord 8 0b00000011 = some .u32Enc := by decide

theorem test_decode_family1 :
    decodeTableWord 8 0b00010000 = some .typeFromStr ∧ decodeTableWord 8 0b00010001 = some .typeFromBytes ∧
    decodeTableWord 8 0b00010010 = some .typeRead ∧ decodeTableWord 8 0b00010011 = some .typeIsValid ∧
    decodeTableWord 8 0b00010100 = some .typeIsCritical ∧ decodeTableWord 8 0b00010101 = some .typeIsPublic ∧
    decodeTableWord 8 0b00010110 = some .typeIsReservedBitValid ∧ decodeTableWord 8 0b00010111 = some .typeIsSafeToCopy := by
  decide

theorem test_decode_family2 :
    decodeTableWord 8 0b00100000 = some .chunkNew ∧ decodeTableWord 8 0b00100001 = some .chunkParse ∧
    decodeTableWord 8 0b00100010 = some .chunkLength ∧ decodeTableWord 8 0b00100011 = some .chunkType ∧
    decodeTableWord 8 0b00100100 = some .chunkData ∧ decodeTableWord 8 0b00100101 = some .chunkCrc ∧
    decodeTableWord 8 0b00100110 = some .chunkDataAsString ∧ decodeTableWord 8 0b00100111 = some .chunkSerialize := by
  decide

theorem test_decode_family3 :
    decodeTableWord 8 0b00110000 = some .pngClear ∧ decodeTableWord 8 0b00110001 = some .pngParse ∧
    decodeTableWord 8 0b00110010 = some .pngAppend ∧ decodeTableWord 8 0b00110011 = some .pngFind ∧
    decodeTableWord 8 0b00110100 = some .pngRemoveFirst ∧ decodeTableWord 8 0b00110101 = some .pngCount ∧
    decodeTableWord 8 0b00110110 = some .pngGet ∧ decodeTableWord 8 0b00110111 = some .pngSerialize ∧
    decodeTableWord 8 0b00111000 = some .pngSignature := by decide

/-- 228 bytes are unassigned (R43). -/
theorem test_unassigned_count :
    ((List.range 256).filter fun w => decodeTableWord 8 w == none).length = 228 := by decide +kernel

theorem test_decodeBytes_rejects : decodeBytes [0x00#8] = .error (.unassigned 0x00#8) ∧ decodeBytes [] = .error .noCommand :=
  ⟨rfl, rfl⟩

/-! ## Small states and what a command does to them -/

/-- ASCII text as bytes. -/
def ascii (t : String) : Bytes := t.toList.map fun c => BitVec.ofNat 8 c.toNat

/-- The type codes of the vectors. -/
def ruSt : TypeCode := ⟨0x52#8, 0x75#8, 0x53#8, 0x74#8⟩
def iend : TypeCode := ⟨0x49#8, 0x45#8, 0x4E#8, 0x44#8⟩
def test : TypeCode := ⟨0x54#8, 0x45#8, 0x53#8, 0x54#8⟩

/-- Records of the vectors, with the checksums V26 lists. -/
def iendChunk : Chunk := ⟨0#32, iend, [], 0xAE426082#32⟩
def hiChunk : Chunk := ⟨2#32, test, [0x68#8, 0x69#8], 0x9D892208#32⟩
def xyChunk : Chunk := ⟨2#32, test, [0x78#8, 0x79#8], 0xCAFC203D#32⟩
def rustChunk : Chunk := ⟨0#32, ⟨0x72#8, 0x75#8, 0x53#8, 0x74#8⟩, [], 0x74B6A602#32⟩

/-- The IEND frame of V32. -/
def iendFrame : Bytes := [0x00#8, 0x00#8, 0x00#8, 0x00#8, 0x49#8, 0x45#8, 0x4E#8, 0x44#8, 0xAE#8, 0x42#8, 0x60#8, 0x82#8]

def withIn (b : Bytes) : State := State.reset.setInput b
def withTr (t : TypeCode) : State := State.reset.loadType t
def withCr (c : Chunk) : State := State.reset.loadChunk c
def withSeq (l : List Chunk) : State := State.reset.setSeq l

/-- What a field of the next state holds. -/
def after {α : Type} (o : Host.Outcome State Fault Refusal) (f : State → α) : Option α :=
  match o with
  | .next t => some (f t)
  | .fault _ => none
  | .refused _ => none

/-- STATUS and RESULT. -/
def sr (t : State) : Byte × Word := (t.status, t.result)

/-- STATUS and OUT. -/
def so (t : State) : Byte × Bytes := (t.status, t.output)

/-! ## CRC-32 and u32 codec -/

theorem test_crc32_check : after (exec .crc32 (withIn (ascii "123456789"))) sr = some (0x00#8, 0xCBF43926#32) := by
  decide +kernel -- V21

theorem test_crc32_known_good :
    after (exec .crc32 (withIn (ascii "RuStThis is where your secret message will be!"))) sr = some (0x00#8, 2882656334#32) := by
  decide +kernel -- V1

/-- V27. -/
theorem test_crcTable :
    [0x00#8, 0x01#8, 0x02#8, 0x03#8, 0x08#8, 0x10#8, 0x40#8, 0x80#8, 0xFF#8].map crcTable =
      [0x00000000#32, 0x77073096#32, 0xEE0E612C#32, 0x990951BA#32, 0x0EDB8832#32, 0x1DB71064#32, 0x76DC4190#32, 0xEDB88320#32,
       0x2D02EF8D#32] := by decide +kernel

theorem test_crc32Table_check : crc32Table (ascii "123456789") = 0xCBF43926#32 := by decide +kernel -- V21, rule R55

theorem test_u32Dec : after (exec .u32Dec (withIn [0x80#8, 0x00#8, 0x00#8, 0x2A#8, 0xFF#8])) sr = some (0x00#8, 0x8000002A#32) := by
  decide -- V28's trailing byte and no sign

theorem test_u32Dec_short : after (exec .u32Dec (withIn [0x00#8, 0x00#8, 0x00#8])) sr = some (0x03#8, 0#32) := by decide -- V28

theorem test_u32Enc :
    after (exec .u32Enc (State.reset.setArg 0x01020304#32)) so = some (0x00#8, [0x01#8, 0x02#8, 0x03#8, 0x04#8]) := by
  decide -- V29

/-! ## Chunk types -/

theorem test_typeFromStr : after (exec .typeFromStr (withIn (ascii "Rust"))) (·.tr) =
    some ⟨true, ⟨0x52#8, 0x75#8, 0x73#8, 0x74#8⟩⟩ := by decide -- V19

theorem test_typeFromStr_bad : after (exec .typeFromStr ((withTr ruSt).setInput [0x5B#8, 0x41#8, 0x41#8, 0x41#8]))
    (fun t => (t.status, t.tr)) = some (0x02#8, ⟨true, ruSt⟩) := by decide -- V41, V46

theorem test_typeFromBytes : after (exec .typeFromBytes (withIn (ascii "AZaz"))) (fun t => (t.status, t.tr.valid)) =
    some (0x00#8, true) := by decide -- V40

theorem test_typeFromBytes_length : after (exec .typeFromBytes (withIn (ascii "RuStX"))) (fun t => (t.status, t.tr.valid)) =
    some (0x02#8, false) := by decide -- V42

theorem test_typeRead : after (exec .typeRead (withTr iend)) so = some (0x00#8, [0x49#8, 0x45#8, 0x4E#8, 0x44#8]) := by
  decide -- V44

theorem test_typeRead_empty : after (exec .typeRead State.reset) so = some (0x11#8, []) := by decide -- V45

/-- V43, the row "Rust" is 0,1,0,0,1. -/
theorem test_typeTests_Rust :
    [Instr.typeIsValid, .typeIsCritical, .typeIsPublic, .typeIsReservedBitValid, .typeIsSafeToCopy].map
      (fun i => after (exec i (withTr ⟨0x52#8, 0x75#8, 0x73#8, 0x74#8⟩)) sr) =
    [0#32, 1#32, 0#32, 0#32, 1#32].map fun v => some (0x00#8, v) := by decide

/-- V43, the row "tEXt" is 1,0,1,1,1 but for its last letter: "tEXT" is not safe to copy. -/
theorem test_typeTests_tEXT :
    [Instr.typeIsValid, .typeIsCritical, .typeIsPublic, .typeIsReservedBitValid, .typeIsSafeToCopy].map
      (fun i => after (exec i (withTr ⟨0x74#8, 0x45#8, 0x58#8, 0x54#8⟩)) sr) =
    [1#32, 0#32, 1#32, 1#32, 0#32].map fun v => some (0x00#8, v) := by decide

/-! ## Chunks -/

theorem test_chunkNew : after (exec .chunkNew ((withTr test).setInput (ascii "hi"))) (·.cr) = some ⟨true, hiChunk⟩ := by
  decide +kernel -- V26

theorem test_chunkNew_empty : after (exec .chunkNew State.reset) (fun t => (t.status, t.cr.valid)) = some (0x11#8, false) := by
  decide -- V45

theorem test_chunkParse : after (exec .chunkParse (withIn (iendFrame ++ [0x01#8, 0x02#8]))) (fun t => (sr t, t.cr)) =
    some ((0x00#8, 12#32), ⟨true, iendChunk⟩) := by decide +kernel -- V37

/-- V30, V31, V39, V38, V48: the order of the failures. -/
theorem test_chunkParse_errors :
    [[0x00#8, 0x00#8, 0x00#8, 0x00#8, 0x49#8, 0x45#8, 0x1E#8, 0x44#8, 0xAE#8, 0x42#8, 0x60#8],
     [0x00#8, 0x00#8, 0x00#8, 0x00#8, 0x49#8, 0x45#8, 0x1E#8, 0x44#8, 0xAE#8, 0x42#8, 0x60#8, 0x82#8],
     [0xFF#8, 0xFF#8, 0xFF#8, 0xFF#8, 0x49#8, 0x45#8, 0x4E#8, 0x30#8, 0xAE#8, 0x42#8, 0x60#8, 0x82#8],
     [0xFF#8, 0xFF#8, 0xFF#8, 0xFF#8, 0x49#8, 0x45#8, 0x4E#8, 0x44#8, 0xAE#8, 0x42#8, 0x60#8, 0x82#8],
     [0x00#8, 0x00#8, 0x00#8, 0x00#8, 0x49#8, 0x45#8, 0x4E#8, 0x44#8, 0xAE#8, 0x42#8, 0x60#8, 0x83#8]].map
      (fun b => after (exec .chunkParse (withIn b)) (·.status)) =
    [0x03#8, 0x02#8, 0x02#8, 0x03#8, 0x04#8].map some := by decide +kernel

theorem test_chunkLength : after (exec .chunkLength (withCr hiChunk)) sr = some (0x00#8, 2#32) := by decide -- R74

theorem test_chunkCrc : after (exec .chunkCrc (withCr hiChunk)) sr = some (0x00#8, 0x9D892208#32) := by decide -- R77

theorem test_chunkType : after (exec .chunkType (withCr iendChunk)) (fun t => (t.tr, so t)) =
    some (⟨true, iend⟩, (0x00#8, [0x49#8, 0x45#8, 0x4E#8, 0x44#8])) := by decide -- R75's example

theorem test_chunkData : after (exec .chunkData (withCr hiChunk)) so = some (0x00#8, [0x68#8, 0x69#8]) := by
  decide -- R76's example

/-- V58's shape: 21 bytes do not fit MAX_OUT = 20. -/
theorem test_chunkData_over :
    after (exec .chunkData ((State.resetOf ⟨64, 20, 1⟩).loadChunk ⟨21#32, test, List.replicate 21 0x78#8, 0#32⟩)) so =
      some (0x13#8, []) := by decide

/-- V53 and V54. -/
theorem test_utf8 :
    [[0x68#8, 0xC3#8, 0xA9#8, 0x6C#8, 0x6C#8, 0x6F#8], [0xF0#8, 0x9F#8, 0x98#8, 0x80#8], [0xC2#8, 0x80#8], [0x7F#8], [],
     [0xFF#8], [0xC0#8, 0x80#8], [0xED#8, 0xA0#8, 0x80#8], [0xF4#8, 0x90#8, 0x80#8, 0x80#8], [0xE2#8, 0x82#8]].map
      utf8WellFormed = [true, true, true, true, true, false, false, false, false, false] := by decide

/-- V59: InvalidUtf8 before CapacityExceeded. -/
theorem test_chunkDataAsString_order :
    after (exec .chunkDataAsString ((State.resetOf ⟨64, 20, 1⟩).loadChunk ⟨21#32, test, List.replicate 21 0xFF#8, 0#32⟩)) so =
      some (0x05#8, []) := by decide

theorem test_chunkSerialize : after (exec .chunkSerialize (withCr iendChunk)) so = some (0x00#8, iendFrame) := by
  decide -- V51

/-- V56, V57: 21 bytes do not fit 20, 20 do. -/
theorem test_chunkSerialize_capacity :
    [9, 8].map (fun n => after (exec .chunkSerialize ((State.resetOf ⟨64, 20, 1⟩).loadChunk
      ⟨BitVec.ofNat 32 n, test, List.replicate n 0x78#8, 0#32⟩)) (fun t => (t.status, t.output.length))) =
    [some (0x13#8, 0), some (0x00#8, 20)] := by decide

/-! ## The container -/

theorem test_pngClear : after (exec .pngClear (withSeq [iendChunk, hiChunk, iendChunk])) (·.seq) = some [] := by decide -- V75

/-- V66 to V68's kinds, in one: leftover too short after a good frame, and SEQ kept. -/
theorem test_pngParse_leftover :
    after (exec .pngParse ((withSeq [iendChunk]).setInput (sig ++ iendFrame ++ [0x00#8]))) (fun t => (t.status, t.seq)) =
      some (0x03#8, [iendChunk]) := by decide +kernel

theorem test_pngParse : after (exec .pngParse (withIn (sig ++ iendFrame ++ iendFrame))) (fun t => (sr t, t.seq)) =
    some ((0x00#8, 2#32), [iendChunk, iendChunk]) := by decide +kernel -- V61's shape

theorem test_pngAppend : after (exec .pngAppend ((withSeq [iendChunk]).loadChunk hiChunk)) (fun t => (t.status, t.seq, t.cr)) =
    some (0x00#8, [iendChunk, hiChunk], ⟨true, hiChunk⟩) := by decide -- R88

theorem test_pngAppend_full :
    after (exec .pngAppend (((State.resetOf ⟨64, 20, 1⟩).setSeq [iendChunk]).loadChunk hiChunk)) (fun t => (t.status, t.seq)) =
      some (0x13#8, [iendChunk]) := by decide -- V69

theorem test_pngFind : after (exec .pngFind ((withSeq [rustChunk, hiChunk, xyChunk]).setInput (ascii "TEST")))
    (fun t => (sr t, t.cr)) = some ((0x00#8, 1#32), ⟨true, hiChunk⟩) := by decide -- V8

theorem test_pngFind_none : after (exec .pngFind (((withSeq [iendChunk]).loadChunk hiChunk).setInput (ascii "iend")))
    (fun t => (sr t, t.cr)) = some ((0x00#8, 0#32), ⟨true, hiChunk⟩) := by decide -- V70

theorem test_pngRemoveFirst :
    after (exec .pngRemoveFirst ((withSeq [hiChunk, rustChunk, xyChunk]).setInput (ascii "TEST"))) (fun t => (t.status, t.seq)) =
      some (0x00#8, [rustChunk, xyChunk]) := by decide -- R90's example

theorem test_pngRemoveFirst_none :
    after (exec .pngRemoveFirst (withIn (ascii "TEST"))) (fun t => (t.status, t.seq)) = some (0x06#8, []) := by decide -- V9

theorem test_pngCount : after (exec .pngCount (withSeq [iendChunk, hiChunk])) sr = some (0x00#8, 2#32) := by decide -- R91

theorem test_pngGet : after (exec .pngGet ((withSeq [iendChunk, hiChunk]).setArg 1#32)) (·.cr) = some ⟨true, hiChunk⟩ := by
  decide -- R92

theorem test_pngGet_range : after (exec .pngGet ((withSeq [iendChunk]).setArg 0xFFFFFFFF#32)) (fun t => (t.status, t.cr.valid)) =
    some (0x12#8, false) := by decide -- V71

theorem test_pngSerialize : after (exec .pngSerialize (withSeq [rustChunk])) so =
    some (0x00#8, [0x89#8, 0x50#8, 0x4E#8, 0x47#8, 0x0D#8, 0x0A#8, 0x1A#8, 0x0A#8, 0x00#8, 0x00#8, 0x00#8, 0x00#8,
      0x72#8, 0x75#8, 0x53#8, 0x74#8, 0x74#8, 0xB6#8, 0xA6#8, 0x02#8]) := by decide -- R93's example

theorem test_pngSerialize_over :
    after (exec .pngSerialize ((State.resetOf ⟨64, 20, 1⟩).setSeq [⟨1#32, iend, [0x61#8], 0#32⟩])) so = some (0x13#8, []) := by
  decide -- V74

theorem test_pngSignature : after (exec .pngSignature State.reset) so =
    some (0x00#8, [0x89#8, 0x50#8, 0x4E#8, 0x47#8, 0x0D#8, 0x0A#8, 0x1A#8, 0x0A#8]) := by decide -- V18

/-! ## Steps and host programs -/

theorem test_step_fetchWord : after (step (State.reset.withFetchWord 8 0x38)) (fun t => (t.status, t.output, t.pending)) =
    some (0x00#8, sig, []) := by decide

theorem test_step_unassigned : after (step ((withTr ruSt).withFetchWord 8 0x00)) (fun t => (sr t, t.tr)) =
    some ((0x10#8, 0#32), ⟨true, ruSt⟩) := by decide -- V76

theorem test_step_reset : after (step ((withTr ruSt).setPending [.reset])) (·.tr.valid) = some false := by decide -- R107

/-- Lines of P2, P3 and P5. -/
theorem test_assemble :
    assemble (["win hex:00fF ; two bytes", "", "; only a comment", "warg 0xABD1D84E", "warg 1", "CHUNK_NEW ; 0x20"].map String.toList) =
      some [.writeIn [0x00#8, 0xFF#8], .writeArg 0xABD1D84E#32, .writeArg 1#32, .cmd 0x20#8] := by decide +kernel

theorem test_assemble_text :
    assembleLine ("win ".toList ++ quoteChar :: "a; b".toList ++ quoteChar :: " ; text".toList) =
      some (some (.writeIn [0x61#8, 0x3B#8, 0x20#8, 0x62#8])) := by decide +kernel

/-- A value over 32 bits, a half pair, an unknown mnemonic and text after a command are no lines of the syntax. -/
theorem test_assemble_rejects :
    (["warg 4294967296", "win hex:0", "NOP", "CRC32 1", "warg"].map fun l => assembleLine l.toList) = List.replicate 5 none := by
  decide +kernel

theorem test_listing : listing .chunkNew = "CHUNK_NEW ; 0x20".toList := by decide +kernel -- R51's example

/-! ## A state for every statement that has hypotheses

One theorem for each statement of Certificates/Slice0/Obligations.lean with hypotheses: concrete states and operands that
meet all of them, clause by clause, at the edges of each clause's range. -/

/-- A state that meets the invariant: parameters ⟨64, 64, 3⟩, TR and CR full, two records in SEQ. -/
def sample : State := ((((State.resetOf ⟨64, 64, 3⟩).loadType ruSt).loadChunk hiChunk).setSeq [iendChunk, rustChunk])

theorem sample_inv : sample.Inv :=
  ⟨by decide, by decide, by decide, by decide, by decide +kernel, by decide +kernel⟩

theorem hiChunk_valid : hiChunk.Valid := by decide +kernel
theorem iendChunk_valid : iendChunk.Valid := by decide +kernel

theorem witness_DecodeOfEncodeIsTheCommand : Instr.pngSignature.wellFormed = true := rfl

theorem witness_StepRunsTheDecodedCommand :
    (sample.setPending [.cmd 0x38#8, .readOut]).pending = .cmd 0x38#8 :: [.readOut] ∧ decode 0x38#8 = .ok .pngSignature ∧
      Instr.pngSignature.wellFormed = true := ⟨rfl, rfl, rfl⟩

theorem witness_UnassignedOpcodeSetsOnlyStatus :
    ∀ op ∈ [0x00#8, 0x04#8, 0x0F#8, 0x18#8, 0x1F#8, 0x28#8, 0x2F#8, 0x39#8, 0xFF#8],
      (sample.setPending [.cmd op]).pending = .cmd op :: [] ∧
      (op.toNat = 0x00 ∨ (0x04 ≤ op.toNat ∧ op.toNat ≤ 0x0F) ∨ (0x18 ≤ op.toNat ∧ op.toNat ≤ 0x1F) ∨
        (0x28 ≤ op.toNat ∧ op.toNat ≤ 0x2F) ∨ (0x39 ≤ op.toNat ∧ op.toNat ≤ 0xFF)) := by decide

theorem witness_HostWriteInReplacesTheContent :
    ((sample.setPending [.writeIn (List.replicate 64 0x00#8)]).pending = .writeIn (List.replicate 64 0x00#8) :: [] ∧
      (List.replicate 64 0x00#8).length ≤ sample.cfg.maxIn) ∧
    ((sample.setPending [.writeIn (List.replicate 65 0x00#8)]).pending = .writeIn (List.replicate 65 0x00#8) :: [] ∧
      sample.cfg.maxIn < (List.replicate 65 0x00#8).length) := by decide

theorem witness_HostWriteArgLoadsArg :
    (sample.setPending [.writeArg 0xFFFFFFFF#32]).pending = .writeArg 0xFFFFFFFF#32 :: [] := rfl

theorem witness_HostReadsReturnTheValueAndChangeNothing :
    ∀ e ∈ [HostEvent.read .status, .read .arg, .read .result, .read .inLen, .read .outLen, .readOut, .readIn],
      (sample.setPending [e]).pending = e :: [] := by decide

theorem witness_ResetEventGivesTheResetValues : (sample.setPending [.reset]).pending = .reset :: [] := rfl

theorem witness_ResetStateHoldsTheResetValues :
    (State.reset = State.reset) ∧ ∃ c, State.resetOf ⟨20, 20, 1⟩ = State.resetOf c := ⟨rfl, _, rfl⟩

theorem witness_NoHostEventNoChange : sample.pending = [] := rfl

theorem witness_U32DecReadsTheFirstFourBytes :
    (withIn [0x00#8, 0x00#8, 0x00#8]).input.length < 4 ∧
      (withIn [0xFF#8, 0x00#8, 0x00#8, 0x2A#8]).input = 0xFF#8 :: 0x00#8 :: 0x00#8 :: 0x2A#8 :: [] := by decide

theorem witness_TypeConstructorsAcceptExactlyFourLetters :
    ((withIn [0x41#8, 0x5A#8, 0x61#8, 0x7A#8]).input = [0x41#8, 0x5A#8, 0x61#8, 0x7A#8] ∧
      LetterByte 0x41#8 ∧ LetterByte 0x5A#8 ∧ LetterByte 0x61#8 ∧ LetterByte 0x7A#8) ∧
    (withIn (ascii "RuS")).input.length ≠ 4 ∧ (withIn (ascii "RuStX")).input.length ≠ 4 ∧
    ∀ x ∈ [0x40#8, 0x5B#8, 0x60#8, 0x7B#8], ∃ b ∈ (withIn [x, 0x41#8, 0x41#8, 0x41#8]).input, ¬ LetterByte b := by decide

theorem witness_TypeReadCopiesTheTypeToOut : (withTr iend).tr.valid = true ∧ State.reset.tr.valid = false := ⟨rfl, rfl⟩

theorem witness_TypeTestsReadBitFive : (withTr ruSt).tr.valid = true ∧ State.reset.tr.valid = false := ⟨rfl, rfl⟩

theorem witness_FullValidityIsTheReservedBitTest : sample.Inv := sample_inv

theorem witness_ChunkNewBuildsTheRecord : sample.tr.valid = true ∧ State.reset.tr.valid = false := ⟨rfl, rfl⟩

/-- Eleven bytes; a non-letter; a length one too big; a wrong checksum; the IEND frame itself. -/
theorem witness_FrameParseFollowsItsSteps :
    (iendFrame.take 11).length < 12 ∧ 12 ≤ iendFrame.length ∧
    (∃ x ∈ [0x49#8, 0x45#8, 0x1E#8, 0x44#8], ¬ LetterByte x) ∧ (∀ x ∈ [0x49#8, 0x45#8, 0x4E#8, 0x44#8], LetterByte x) ∧
    iendFrame.length < 12 + bigEndian 0x00#8 0x00#8 0x00#8 0x01#8 ∧
    ([0xAE#8, 0x42#8, 0x60#8, 0x82#8] : Bytes) = [] ++ 0xAE#8 :: 0x42#8 :: 0x60#8 :: 0x82#8 :: [] ∧
    ([] : Bytes).length = bigEndian 0x00#8 0x00#8 0x00#8 0x00#8 ∧
    (crc32 ([0x49#8, 0x45#8, 0x4E#8, 0x44#8] ++ [])).toNat ≠ bigEndian 0xAE#8 0x42#8 0x60#8 0x83#8 ∧
    (crc32 ([0x49#8, 0x45#8, 0x4E#8, 0x44#8] ++ [])).toNat = bigEndian 0xAE#8 0x42#8 0x60#8 0x82#8 := by decide +kernel

theorem witness_ChunkParseLoadsTheParsedFrame :
    (withIn iendFrame).input = frame iendChunk ++ [] ∧
    (frameParse (withIn iendFrame).input).toOption = some (iendChunk, 12) ∧
    frameParse (withIn (iendFrame.take 11)).input = .error .truncatedBuffer ∧
    (∃ b, frameParse (withIn b).input = .error .invalidTypeCode) ∧
    (∃ b, frameParse (withIn b).input = .error .checksumMismatch) :=
  ⟨by decide, by decide +kernel, rfl,
    ⟨List.replicate 12 0x00#8, rfl⟩,
    ⟨[0x00#8, 0x00#8, 0x00#8, 0x00#8, 0x41#8, 0x41#8, 0x41#8, 0x41#8, 0x00#8, 0x00#8, 0x00#8, 0x00#8], by decide +kernel⟩⟩

theorem witness_ChunkParseAcceptsEveryValidFrame : hiChunk.Valid ∧ (withIn (frame hiChunk ++ [0x00#8])).input = frame hiChunk ++ [0x00#8] :=
  ⟨hiChunk_valid, rfl⟩

theorem witness_FrameParseFailsInThreeWays : frameParse [] = .error .truncatedBuffer := rfl

theorem witness_ChunkAccessorsReadTheRecord : sample.cr.valid = true ∧ State.reset.cr.valid = false := ⟨rfl, rfl⟩

/-- A state whose record has `n` bytes of data beside MAX_OUT = 20. -/
def narrow (n : Nat) (b : Byte) : State := (State.resetOf ⟨64, 20, 1⟩).loadChunk (newChunk test (List.replicate n b))

theorem witness_ChunkDataWritesTheData :
    State.reset.cr.valid = false ∧ ((narrow 21 0x78#8).cr.valid = true ∧ (narrow 21 0x78#8).cfg.maxOut < (narrow 21 0x78#8).cr.chunk.length.toNat) ∧
      ((narrow 20 0x78#8).cr.valid = true ∧ (narrow 20 0x78#8).cr.chunk.length.toNat ≤ (narrow 20 0x78#8).cfg.maxOut) := by
  decide +kernel

theorem witness_ChunkDataAsStringChecksUtf8First :
    State.reset.cr.valid = false ∧ ((narrow 21 0xFF#8).cr.valid = true ∧ utf8WellFormed (narrow 21 0xFF#8).cr.chunk.data = false) ∧
      ((narrow 21 0x78#8).cr.valid = true ∧ utf8WellFormed (narrow 21 0x78#8).cr.chunk.data = true ∧
        (narrow 21 0x78#8).cfg.maxOut < (narrow 21 0x78#8).cr.chunk.length.toNat) ∧
      ((narrow 20 0x78#8).cr.valid = true ∧ utf8WellFormed (narrow 20 0x78#8).cr.chunk.data = true ∧
        (narrow 20 0x78#8).cr.chunk.length.toNat ≤ (narrow 20 0x78#8).cfg.maxOut) := by decide +kernel

theorem witness_ChunkSerializeWritesTheFrame :
    State.reset.cr.valid = false ∧
      ((narrow 9 0x78#8).cr.valid = true ∧ (narrow 9 0x78#8).cfg.maxOut < 12 + (narrow 9 0x78#8).cr.chunk.length.toNat) ∧
      ((narrow 8 0x78#8).cr.valid = true ∧ 12 + (narrow 8 0x78#8).cr.chunk.length.toNat ≤ (narrow 8 0x78#8).cfg.maxOut) := by
  decide +kernel

theorem witness_FrameAndFrameParseAreInverse : hiChunk.Valid ∧ (frameParse iendFrame).toOption = some (iendChunk, 12) :=
  ⟨hiChunk_valid, by decide +kernel⟩

theorem witness_SerializeThenParseRestoresTheChunk :
    (sample.setPending [.cmd 0x27#8, .writeIn (frame hiChunk), .cmd 0x21#8]).Inv ∧ sample.cr.valid = true ∧
      12 + sample.cr.chunk.length.toNat ≤ sample.cfg.maxOut ∧ 12 + sample.cr.chunk.length.toNat ≤ sample.cfg.maxIn ∧
      (sample.setPending [.cmd 0x27#8, .writeIn (frame hiChunk), .cmd 0x21#8]).pending =
        [.cmd 0x27#8, .writeIn (frame sample.cr.chunk), .cmd 0x21#8] :=
  ⟨⟨sample_inv.config, sample_inv.capacity, sample_inv.status, sample_inv.type, sample_inv.chunk, sample_inv.store⟩,
    by decide, by decide, by decide, rfl⟩

/-- The first and the last data byte; "T" to "t", still a letter; "T" with bit 7 set, no letter. -/
theorem witness_OneFlippedBitIsAlwaysFound :
    hiChunk.Valid ∧ (8 < 8 + hiChunk.data.length ∧ 9 < 8 + hiChunk.data.length) ∧
    (∀ x ∈ byteAt (flipBit (frame hiChunk) 4 5) 4, LetterByte x) ∧
    (∃ x ∈ byteAt (flipBit (frame hiChunk) 4 7) 4, ¬ LetterByte x) ∧ (∃ x ∈ byteAt (flipBit (frame hiChunk) 7 7) 7, ¬ LetterByte x) :=
  ⟨hiChunk_valid, by decide, by simp [flipBit, frame, enc32, hiChunk, test, TypeCode.toBytes, byteAt, LetterByte],
    ⟨0xD4#8, rfl, by decide⟩, ⟨0xD4#8, rfl, by decide⟩⟩

theorem witness_ContainerParseWantsTheSignature :
    (sig.take 7).length < 8 ∧ (List.replicate 8 0x89#8).take 8 ≠
      [0x89#8, 0x50#8, 0x4E#8, 0x47#8, 0x0D#8, 0x0A#8, 0x1A#8, 0x0A#8] := by decide

theorem witness_ContainerParseFollowsItsLoop :
    (∀ c ∈ [iendChunk, hiChunk], c.Valid) ∧ ([0x00#8] : Bytes) ≠ [] ∧ frameParse [0x00#8] = .error .truncatedBuffer ∧
      (frameParse iendFrame).toOption = some (iendChunk, 12) := by
  refine ⟨by decide +kernel, by decide, rfl, by decide +kernel⟩

theorem witness_PngParseReplacesTheSequenceOrKeepsIt :
    (containerParse (withIn (sig ++ iendFrame)).input).toOption = some [iendChunk] ∧
      [iendChunk].length ≤ (State.resetOf ⟨64, 64, 1⟩).cfg.maxChunks ∧
      (containerParse (withIn (sig ++ iendFrame ++ iendFrame)).input).toOption = some [iendChunk, iendChunk] ∧
      (State.resetOf ⟨64, 64, 1⟩).cfg.maxChunks < [iendChunk, iendChunk].length ∧
      containerParse (withIn []).input = .error .invalidSignature := by
  refine ⟨by decide +kernel, by decide, by decide +kernel, by decide, rfl⟩

theorem witness_PngParseAcceptsEveryValidStream :
    (∀ c ∈ [iendChunk, hiChunk], c.Valid) ∧ (withIn (containerStream [iendChunk, hiChunk])).input = containerStream [iendChunk, hiChunk] ∧
      [iendChunk, hiChunk].length ≤ (State.resetOf ⟨64, 64, 2⟩).cfg.maxChunks ∧
      (State.resetOf ⟨64, 64, 1⟩).cfg.maxChunks < [iendChunk, hiChunk].length :=
  ⟨by decide +kernel, rfl, by decide, by decide⟩

theorem witness_PngAppendAddsAtTheTail :
    State.reset.cr.valid = false ∧
      ((narrow 0 0x00#8).cr.valid = true ∧ ((narrow 0 0x00#8).setSeq [iendChunk]).seq.length = (narrow 0 0x00#8).cfg.maxChunks) ∧
      (narrow 0 0x00#8).seq.length ≠ (narrow 0 0x00#8).cfg.maxChunks := by decide

theorem witness_PngFindReturnsTheFirstMatch :
    (withSeq [rustChunk, hiChunk, xyChunk]).seq = [rustChunk] ++ hiChunk :: [xyChunk] ∧
      (∀ d ∈ [rustChunk], [d.type.b0, d.type.b1, d.type.b2, d.type.b3] ≠ ascii "TEST") ∧
      [hiChunk.type.b0, hiChunk.type.b1, hiChunk.type.b2, hiChunk.type.b3] = ascii "TEST" ∧
      (∀ d ∈ [rustChunk, hiChunk], [d.type.b0, d.type.b1, d.type.b2, d.type.b3] ≠ ascii "test") := by decide

theorem witness_PngRemoveFirstRemovesTheFirstMatch :
    (withSeq [hiChunk, rustChunk]).seq = [] ++ hiChunk :: [rustChunk] ∧
      [hiChunk.type.b0, hiChunk.type.b1, hiChunk.type.b2, hiChunk.type.b3] = ascii "TEST" ∧
      (∀ d ∈ [rustChunk, hiChunk], [d.type.b0, d.type.b1, d.type.b2, d.type.b3] ≠ ascii "TES") := by decide

theorem witness_PngGetCopiesTheIndexedChunk :
    ((withSeq [iendChunk]).setArg 1#32).seq.length ≤ ((withSeq [iendChunk]).setArg 1#32).arg.toNat ∧
      (withSeq [iendChunk]).seq = [] ++ iendChunk :: [] ∧ ([] : List Chunk).length = (withSeq [iendChunk]).arg.toNat := by decide

theorem witness_PngSerializeWritesTheStream :
    ∀ n ∈ [0, 1], ∃ stream, stream = [0x89#8, 0x50#8, 0x4E#8, 0x47#8, 0x0D#8, 0x0A#8, 0x1A#8, 0x0A#8] ++
      (((narrow 0 0x00#8).setSeq [newChunk iend (List.replicate n 0x61#8)]).seq.map fun c =>
        enc32 c.length ++ [c.type.b0, c.type.b1, c.type.b2, c.type.b3] ++ c.data ++ enc32 c.crc).flatten ∧
      stream.length = 20 + n ∧ (narrow 0 0x00#8).cfg.maxOut = 20 :=
  fun n hn => ⟨_, rfl, by
    simp only [List.mem_cons, List.not_mem_nil, or_false] at hn
    rcases hn with rfl | rfl <;> exact ⟨rfl, rfl⟩⟩

theorem witness_StreamLengthIsEightPlusTheFrames : ∀ c ∈ [iendChunk, hiChunk], c.Valid := by decide +kernel

theorem witness_ParseThenSerializeReproducesTheInput :
    (containerParse (((withIn (sig ++ iendFrame)).setPending [.cmd 0x31#8, .cmd 0x37#8])).input).toOption = some [iendChunk] ∧
      [iendChunk].length ≤ State.reset.cfg.maxChunks ∧ (sig ++ iendFrame).length ≤ State.reset.cfg.maxOut ∧
      ((withIn (sig ++ iendFrame)).setPending [.cmd 0x31#8, .cmd 0x37#8]).pending = [.cmd 0x31#8, .cmd 0x37#8] :=
  ⟨by decide +kernel, by decide, by decide, rfl⟩

theorem witness_AppendThenRemoveRestoresTheSequence :
    sample.cr.valid = true ∧ sample.seq.length ≠ sample.cfg.maxChunks ∧
      (sample.setInput (ascii "TEST")).input = sample.cr.chunk.type.toBytes ∧
      (sample.setPending [.cmd 0x32#8, .cmd 0x34#8, .cmd 0x34#8]).pending = .cmd 0x32#8 :: .cmd 0x34#8 :: .cmd 0x34#8 :: [] ∧
      (∀ d ∈ sample.seq, d.type ≠ sample.cr.chunk.type) ∧
      (sample.setSeq [iendChunk, xyChunk]).seq = [iendChunk] ++ xyChunk :: [] ∧
      (∀ x ∈ [iendChunk], x.type ≠ sample.cr.chunk.type) ∧ xyChunk.type = sample.cr.chunk.type := by decide

/-- Every code but IllegalCommand is raised by some command; none raises IllegalCommand. -/
theorem witness_EachCodeIsRaisedOnlyByItsCommands :
    [after (exec .pngParse State.reset) (·.status), after (exec .typeFromStr State.reset) (·.status),
     after (exec .u32Dec State.reset) (·.status), after (exec .chunkDataAsString (narrow 1 0xFF#8)) (·.status),
     after (exec .pngRemoveFirst State.reset) (·.status), after (exec .typeRead State.reset) (·.status),
     after (exec .pngGet State.reset) (·.status), after (exec .chunkSerialize (narrow 9 0x78#8)) (·.status),
     after (exec .chunkParse (withIn [0x00#8, 0x00#8, 0x00#8, 0x00#8, 0x41#8, 0x41#8, 0x41#8, 0x41#8, 0x00#8, 0x00#8, 0x00#8, 0x00#8]))
       (·.status)] =
    [0x01#8, 0x02#8, 0x03#8, 0x05#8, 0x06#8, 0x11#8, 0x12#8, 0x13#8, 0x04#8].map some := by decide +kernel

theorem witness_AFailingCommandWritesOnlyStatus :
    ∃ t, exec .pngGet State.reset = .next t ∧ t.status ≠ 0x00#8 := ⟨_, rfl, by decide⟩

/-- A command outside each of the five lists. -/
theorem witness_CommandsWriteOnlyWhatTheTableNames :
    (∃ t, exec .pngClear sample = .next t) ∧ (∃ t, exec .crc32 sample = .next t) ∧
    Instr.pngClear ∉ [Instr.crc32, .u32Dec, .typeIsValid, .typeIsCritical, .typeIsPublic, .typeIsReservedBitValid,
      .typeIsSafeToCopy, .chunkParse, .chunkLength, .chunkCrc, .pngParse, .pngFind, .pngCount] ∧
    Instr.pngClear ∉ [Instr.u32Enc, .typeRead, .chunkType, .chunkData, .chunkDataAsString, .chunkSerialize, .pngSerialize,
      .pngSignature] ∧
    Instr.pngClear ∉ [Instr.typeFromStr, .typeFromBytes, .chunkType] ∧
    Instr.pngClear ∉ [Instr.chunkNew, .chunkParse, .pngFind, .pngGet] ∧
    Instr.crc32 ∉ [Instr.pngClear, .pngParse, .pngAppend, .pngRemoveFirst] := by
  refine ⟨⟨_, rfl⟩, ⟨_, rfl⟩, ?_, ?_, ?_, ?_, ?_⟩ <;> decide

theorem witness_ReadingCommandsGiveTheSameAnswer :
    ∃ t t', exec .chunkLength sample = .next t ∧ exec .chunkLength (sample.setResult 7#32) = .next t' ∧
      sample.input = (sample.setResult 7#32).input ∧ sample.arg = (sample.setResult 7#32).arg ∧
      sample.tr = (sample.setResult 7#32).tr ∧ sample.cr = (sample.setResult 7#32).cr ∧ sample.seq = (sample.setResult 7#32).seq :=
  ⟨_, _, rfl, rfl, rfl, rfl, rfl, rfl, rfl⟩

theorem witness_RoomyOutNeverOverflows :
    ∃ (s t : State), s.Inv ∧ s.cfg.maxIn + 12 ≤ s.cfg.maxOut ∧ exec .chunkSerialize s = .next t :=
  ⟨(State.resetOf ⟨20, 32, 1⟩).loadChunk hiChunk, _,
    ⟨by decide, by decide, by decide, by decide, by decide +kernel, by decide⟩, by decide, rfl⟩

theorem witness_ResetMeetsTheInvariant : (⟨20, 2 ^ 32 - 1, 1⟩ : Config).Valid := by decide

theorem witness_EveryStepKeepsTheInvariant :
    (sample.setPending [.cmd 0x32#8]).Inv ∧ ∃ t, step (sample.setPending [.cmd 0x32#8]) = .next t :=
  ⟨⟨sample_inv.config, sample_inv.capacity, sample_inv.status, sample_inv.type, sample_inv.chunk, sample_inv.store⟩, _, rfl⟩

theorem witness_ALegalHostIsNeverStopped :
    (sample.setPending [.writeIn (List.replicate 64 0x00#8), .cmd 0xFF#8, .reset]).HostLegal := by decide

theorem witness_UnreadableBytesNeverReachAnOutput :
    (State.reset).SameVisible { State.reset with tr := ⟨false, ruSt⟩, cr := ⟨false, hiChunk⟩ } ∧
      ∃ t, step State.reset = .next t :=
  ⟨⟨rfl, rfl, rfl, rfl, rfl, rfl, rfl, by decide, rfl, by decide, rfl, rfl, rfl⟩, _, rfl⟩

theorem witness_MnemonicLinesIssueTheirCommand : ∀ c ∈ [' ', 'a', ';', 'b'], c ≠ '\n' := by simp

theorem witness_WinAndWargLinesIssueTheirWrites :
    ∀ c ∈ ['R', 'u', ';', ' '], c.toNat < 128 ∧ c ≠ quoteChar ∧ c ≠ '\n' := by simp [quoteChar]

end Sys2Proof.Tests
end

section
/-! Settles O54, the note under 00_scope.md R8's table: where MAX_OUT leaves room for a frame around the longest data IN can
hold, what a command reads from CR always fits OUT. -/

namespace Sys2Proof.Machine

variable {s t : State}

theorem exec_chunkData : exec .chunkData s = withChunk s fun c => emit c.length.toNat c.data s := rfl

theorem exec_chunkDataAsString : exec .chunkDataAsString s =
    withChunk s fun c => if utf8WellFormed c.data then emit c.length.toNat c.data s else fail .invalidUtf8 s := rfl

theorem exec_chunkSerialize : exec .chunkSerialize s = withChunk s fun c => emit (12 + c.length.toNat) (frame c) s := rfl

theorem raise_status_ne_capacityExceeded {e : ErrorKind} (he : e ≠ .capacityExceeded) : (s.raise e).status ≠ 0x13#8 :=
  fun h => he (ErrorKind.code_injective h)

theorem emit_fits_status {n : Nat} {v : Bytes} (hn : n ≤ s.cfg.maxOut) (h : emit n v s = .next t) : t.status = statusOk := by
  rw [emit_fits hn] at h
  cases h
  rfl

/-- The frame of the record in CR fits OUT. The bound on the record's data is the invariant's (log entry 7). -/
theorem State.Inv.frame_fits_output (hs : s.Inv) (hroom : s.cfg.maxIn + 12 ≤ s.cfg.maxOut) (hv : s.cr.valid = true) :
    12 + s.cr.chunk.length.toNat ≤ s.cfg.maxOut := by
  obtain ⟨⟨hlength, -, -⟩, hdata⟩ := hs.chunk hv
  omega

/-- A command on CR whose body, on the record CR holds, does not end with CapacityExceeded: nor does the command, since an
empty CR raises OperandInvalid. -/
theorem withChunk_status_ne_capacityExceeded {k : Chunk → Host.Outcome State Fault Refusal}
    (hk : s.cr.valid = true → k s.cr.chunk = .next t → t.status ≠ 0x13#8) (h : withChunk s k = .next t) :
    t.status ≠ 0x13#8 := by
  obtain ⟨hv, hbody⟩ | ⟨-, rfl⟩ := withChunk_next h
  · exact hk hv hbody
  · exact raise_status_ne_capacityExceeded (by decide)

/-- Settles O54: the three commands emit at most the frame of CR's record, and that fits. -/
theorem roomyOutNeverOverflows : Obligations.RoomyOutNeverOverflows := by
  intro s t i hs hroom hi h
  have emit_ok {n : Nat} {v : Bytes} (hv : s.cr.valid = true) (hn : n ≤ 12 + s.cr.chunk.length.toNat)
      (he : emit n v s = .next t) : t.status ≠ 0x13#8 := by
    rw [emit_fits_status (hn.trans (hs.frame_fits_output hroom hv)) he]
    decide
  simp only [List.mem_cons, List.not_mem_nil, or_false] at hi
  obtain rfl | rfl | rfl := hi
  · rw [exec_chunkData] at h
    exact withChunk_status_ne_capacityExceeded (fun hv => emit_ok hv (Nat.le_add_left ..)) h
  · rw [exec_chunkDataAsString] at h
    refine withChunk_status_ne_capacityExceeded (fun hv hbody => ?_) h
    split at hbody
    · exact emit_ok hv (Nat.le_add_left ..) hbody
    · cases hbody
      exact raise_status_ne_capacityExceeded (by decide)
  · rw [exec_chunkSerialize] at h
    exact withChunk_status_ne_capacityExceeded (fun hv => emit_ok hv le_rfl) h

end Sys2Proof.Machine
end

section
/-! The reset state. Settles O10 and O55: the reset table (10_state.md R31, with the table of R55) and the base case of the
invariant. -/

namespace Sys2Proof.Machine

theorem reset_eq_resetOf : State.reset = State.resetOf Config.vectors := rfl

theorem Config.vectors_valid : Config.vectors.Valid := by decide

/-- The model runs the bit step before the remaining ones, R55's recurrence after them: the same number of the same step. -/
theorem crcBits_eq_repeat (k : Nat) (c : Word) : crcBits k c = Nat.repeat crcBit k c := by
  have step_first (k : Nat) (c : Word) : Nat.repeat crcBit k (crcBit c) = crcBit (Nat.repeat crcBit k c) := by
    induction k with
    | zero => rfl
    | succ k ih => exact congrArg crcBit ih
  induction k generalizing c with
  | zero => rfl
  | succ k ih => exact (ih (crcBit c)).trans (step_first k c)

/-- Settles O10: every field holds its value by definition, and the table is R55's recurrence. -/
theorem resetStateHoldsTheResetValues : Obligations.ResetStateHoldsTheResetValues := by
  intro s hs
  obtain ⟨c, rfl⟩ : ∃ c, s = State.resetOf c := by
    obtain rfl | hc := hs
    · exact ⟨_, reset_eq_resetOf⟩
    · exact hc
  exact ⟨rfl, rfl, rfl, rfl, rfl, rfl, rfl, rfl, rfl, rfl, rfl, fun n => crcBits_eq_repeat 8 (n.zeroExtend 32)⟩

/-- TR and CR are empty and SEQ holds nothing, so at reset the invariant asks only for the capacities and a listed STATUS. -/
theorem State.Inv.resetOf {c : Config} (hc : c.Valid) : (State.resetOf c).Inv where
  config := hc
  capacity := Memory.wf_resetOf c
  status := statusOk_legal
  type := nofun
  chunk := nofun
  store := nofun

/-- Settles O55. -/
theorem resetMeetsTheInvariant : Obligations.ResetMeetsTheInvariant :=
  ⟨State.Inv.resetOf Config.vectors_valid, fun _ hc => State.Inv.resetOf hc⟩

end Sys2Proof.Machine
end

section
/-! Settles O56: every step keeps the invariant of 10_state.md R20 to R25 and 60_exceptions.md R97. First one rule for each
update of the state, then one for each shared operation, then the commands and the host events. -/

namespace Sys2Proof.Machine

variable {s : State}

/-! ## Records the block may store -/

/-- What the invariant asks of a record in CR or SEQ: R24's three invariants and no more data than IN can hold. -/
abbrev Chunk.Storable (cfg : Config) (c : Chunk) : Prop := c.Valid ∧ c.data.length ≤ cfg.maxIn

theorem Chunk.Storable.data_length_le {cfg : Config} {c : Chunk} : c.Storable cfg → c.data.length ≤ c.length.toNat :=
  fun ⟨⟨hlength, _⟩, _⟩ => hlength.ge

theorem Chunk.Storable.allLetters {cfg : Config} {c : Chunk} : c.Storable cfg → c.type.allLetters = true :=
  fun ⟨⟨_, hletters, _⟩, _⟩ => hletters

theorem frameParse_storable {cfg : Config} {b : Bytes} {c : Chunk} {n : Nat} (hb : b.length ≤ cfg.maxIn)
    (h : frameParse b = .ok (c, n)) : c.Storable cfg := by
  obtain ⟨⟨hlength, hfields⟩, hn, hle, -⟩ := frameParse_ok_frame h
  exact ⟨⟨hlength, hfields⟩, by omega⟩

theorem containerParse_storable {cfg : Config} {b : Bytes} {l : List Chunk} (hb : b.length ≤ cfg.maxIn)
    (h : containerParse b = .ok l) : ∀ c ∈ l, c.Storable cfg := by
  obtain ⟨hvalid, rfl⟩ := containerParse_ok h
  exact fun c hc => ⟨hvalid c hc, (data_length_le_stream hc).trans hb⟩

theorem newChunk_storable {cfg : Config} {u : TypeCode} {d : Bytes} (hcfg : cfg.Valid) (hu : u.allLetters = true)
    (hd : d.length ≤ cfg.maxIn) : (newChunk u d).Storable cfg := by
  obtain ⟨⟨-, hmaxIn⟩, -⟩ := hcfg
  exact ⟨newChunk_valid hu (by omega), hd⟩

theorem removeFirst_sublist {k : Bytes} {l l' : List Chunk} (h : removeFirst k l = some l') : l'.Sublist l := by
  obtain ⟨before, c, after, rfl, rfl, -, -⟩ := removeFirst_some h
  exact (List.sublist_cons_self c after).append_left before

/-! ## One rule for each update of the state -/

namespace State.Inv

theorem input_length_le (h : s.Inv) : s.input.length ≤ s.cfg.maxIn := (Memory.wf_iff.1 h.capacity).1

theorem seq_length_le (h : s.Inv) : s.seq.length ≤ s.cfg.maxChunks := (Memory.wf_iff.1 h.capacity).2.2

theorem setStatus (h : s.Inv) {v : Byte} (hv : v ∈ legalStatus) : (s.setStatus v).Inv :=
  { h with capacity := Memory.wf_setStatus v h.capacity, status := hv }

theorem raise (h : s.Inv) (e : ErrorKind) : (s.raise e).Inv := h.setStatus e.code_legal

theorem setArg (h : s.Inv) (v : Word) : (s.setArg v).Inv := { h with capacity := Memory.wf_setArg v h.capacity }

theorem setResult (h : s.Inv) (v : Word) : (s.setResult v).Inv := { h with capacity := Memory.wf_setResult v h.capacity }

theorem setInput (h : s.Inv) {b : Bytes} (hb : b.length ≤ s.cfg.maxIn) : (s.setInput b).Inv :=
  { h with capacity := Memory.wf_setInput hb h.capacity }

theorem memWrite (h : s.Inv) {v : Bytes} (hv : v.length ≤ s.cfg.maxOut) : (s.memWrite v).Inv :=
  { h with capacity := Memory.wf_memWrite hv h.capacity }

/-- Twenty bytes always fit OUT (00_scope.md R8). -/
theorem memWrite_short (h : s.Inv) {v : Bytes} (hv : v.length ≤ 20) : (s.memWrite v).Inv :=
  h.memWrite (hv.trans h.config.2.1.1)

theorem memWrite_type (h : s.Inv) (u : TypeCode) : (s.memWrite u.toBytes).Inv :=
  h.memWrite_short (u.toBytes_length.trans_le (by decide))

theorem loadType (h : s.Inv) {u : TypeCode} (hu : u.allLetters = true) : (s.loadType u).Inv :=
  { h with capacity := Memory.wf_loadType u h.capacity, type := fun _ => hu }

theorem loadChunk (h : s.Inv) {c : Chunk} (hc : c.Storable s.cfg) : (s.loadChunk c).Inv :=
  { h with capacity := Memory.wf_loadChunk c h.capacity, chunk := fun _ => hc }

theorem setSeq (h : s.Inv) {l : List Chunk} (hlen : l.length ≤ s.cfg.maxChunks) (hl : ∀ c ∈ l, c.Storable s.cfg) :
    (s.setSeq l).Inv :=
  { h with capacity := Memory.wf_setSeq hlen h.capacity, store := hl }

/-- The invariant says nothing of the host beside the block. -/
theorem withHost (h : s.Inv) (p : List HostEvent) (a : List HostAnswer) : ({ s with pending := p, answers := a } : State).Inv :=
  { h with capacity := h.capacity }

end State.Inv

/-! ## One rule for each shared operation -/

/-- Whatever next state the outcome has meets the invariant. -/
def InvAfter (o : Host.Outcome State Fault Refusal) : Prop := ∀ t, o = .next t → t.Inv

theorem invAfter_next (h : s.Inv) : InvAfter (.next s) := fun _ ht => by cases ht; exact h

theorem invAfter_refused (r : Refusal) : InvAfter (.refused r) := nofun

theorem invAfter_done (h : s.Inv) : InvAfter (done s) := invAfter_next (h.setStatus statusOk_legal)

theorem invAfter_fail (h : s.Inv) (e : ErrorKind) : InvAfter (fail e s) := invAfter_next (h.raise e)

/-- The size a command declares to `emit` must be no less than what it writes. -/
theorem invAfter_emit (h : s.Inv) {n : Nat} {v : Bytes} (hv : v.length ≤ n) : InvAfter (emit n v s) := by
  unfold emit
  split
  · exact invAfter_fail h _
  · exact invAfter_done (h.memWrite (by omega))

theorem invAfter_withType (h : s.Inv) {k : TypeCode → Host.Outcome State Fault Refusal}
    (hk : ∀ u, u.allLetters = true → InvAfter (k u)) : InvAfter (withType s k) := by
  intro t ht
  obtain ⟨hv, hbody⟩ | ⟨-, rfl⟩ := withType_next ht
  · exact hk _ (h.type hv) t hbody
  · exact h.raise _

theorem invAfter_withChunk (h : s.Inv) {k : Chunk → Host.Outcome State Fault Refusal}
    (hk : ∀ c, c.Storable s.cfg → InvAfter (k c)) : InvAfter (withChunk s k) := by
  intro t ht
  obtain ⟨hv, hbody⟩ | ⟨-, rfl⟩ := withChunk_next ht
  · exact hk _ (h.chunk hv) t hbody
  · exact h.raise _

/-! ## The commands -/

theorem invAfter_execU32Dec (h : s.Inv) : InvAfter (execU32Dec s) := by
  unfold execU32Dec
  split
  · exact invAfter_fail h _
  split
  · exact invAfter_done (h.setResult _)
  · exact invAfter_fail h _

theorem invAfter_typeFromInput (h : s.Inv) : InvAfter (typeFromInput s) := by
  unfold typeFromInput
  split
  · exact invAfter_fail h _
  split
  · split
    · next hletters => exact invAfter_done (h.loadType hletters)
    · exact invAfter_fail h _
  · exact invAfter_fail h _

theorem invAfter_typeTest (h : s.Inv) (p : TypeCode → Bool) : InvAfter (typeTest p s) :=
  invAfter_withType h fun _ _ => invAfter_done (h.setResult _)

theorem invAfter_execChunkNew (h : s.Inv) : InvAfter (execChunkNew s) := by
  refine invAfter_withType h fun u hu => invAfter_done (h.loadChunk ?_)
  rw [memReadAll_eq]
  exact newChunk_storable h.config hu h.input_length_le

theorem invAfter_execChunkParse (h : s.Inv) : InvAfter (execChunkParse s) := by
  unfold execChunkParse
  rw [memReadAll_eq]
  split
  · next hp => exact invAfter_done ((h.loadChunk (frameParse_storable h.input_length_le hp)).setResult _)
  · exact invAfter_fail h _

theorem invAfter_execPngParse (h : s.Inv) : InvAfter (execPngParse s) := by
  unfold execPngParse
  rw [memReadAll_eq]
  split
  · exact invAfter_fail h _
  next hp =>
  split
  · exact invAfter_fail h _
  · exact invAfter_done ((h.setSeq (by omega) (containerParse_storable h.input_length_le hp)).setResult _)

/-- A store that is within capacity and not full has room for one record more. -/
theorem invAfter_execPngAppend (h : s.Inv) : InvAfter (execPngAppend s) := by
  refine invAfter_withChunk h fun c hc => ?_
  split
  · exact invAfter_fail h _
  · next hfull =>
    have hroom : (s.seq ++ [c]).length ≤ s.cfg.maxChunks := by
      rw [List.length_append, List.length_singleton]
      exact lt_of_le_of_ne h.seq_length_le hfull
    exact invAfter_done (h.setSeq hroom (List.forall_mem_append.2 ⟨h.store, List.forall_mem_singleton.2 hc⟩))

theorem invAfter_execPngFind (h : s.Inv) : InvAfter (execPngFind s) := by
  unfold execPngFind
  split
  · next hf => exact invAfter_done ((h.loadChunk (h.store _ (List.mem_of_find?_eq_some hf))).setResult _)
  · exact invAfter_done (h.setResult _)

theorem invAfter_execPngRemoveFirst (h : s.Inv) : InvAfter (execPngRemoveFirst s) := by
  unfold execPngRemoveFirst
  split
  · next hr =>
    have hsub := removeFirst_sublist hr
    exact invAfter_done (h.setSeq (hsub.length_le.trans h.seq_length_le) fun c hc => h.store c (hsub.subset hc))
  · exact invAfter_fail h _

theorem invAfter_execPngGet (h : s.Inv) : InvAfter (execPngGet s) := by
  unfold execPngGet
  split
  · next hget => exact invAfter_done (h.loadChunk (h.store _ (List.mem_of_getElem? hget)))
  · exact invAfter_fail h _

theorem invAfter_exec (h : s.Inv) (i : Instr) : InvAfter (exec i s) := by
  cases i with
  | crc32 => exact invAfter_done (h.setResult _)
  | u32Dec => exact invAfter_execU32Dec h
  | u32Enc => exact invAfter_done (h.memWrite_short ((enc32_length _).trans_le (by decide)))
  | typeFromStr => exact invAfter_typeFromInput h
  | typeFromBytes => exact invAfter_typeFromInput h
  | typeRead => exact invAfter_withType h fun u _ => invAfter_done (h.memWrite_type u)
  | typeIsValid => exact invAfter_typeTest h _
  | typeIsCritical => exact invAfter_typeTest h _
  | typeIsPublic => exact invAfter_typeTest h _
  | typeIsReservedBitValid => exact invAfter_typeTest h _
  | typeIsSafeToCopy => exact invAfter_typeTest h _
  | chunkNew => exact invAfter_execChunkNew h
  | chunkParse => exact invAfter_execChunkParse h
  | chunkLength => exact invAfter_withChunk h fun _ _ => invAfter_done (h.setResult _)
  | chunkType =>
    exact invAfter_withChunk h fun _ hc => invAfter_done ((h.loadType hc.allLetters).memWrite_type _)
  | chunkData => exact invAfter_withChunk h fun _ hc => invAfter_emit h hc.data_length_le
  | chunkCrc => exact invAfter_withChunk h fun _ _ => invAfter_done (h.setResult _)
  | chunkDataAsString =>
    rw [exec_chunkDataAsString]
    refine invAfter_withChunk h fun c hc => ?_
    split
    · exact invAfter_emit h hc.data_length_le
    · exact invAfter_fail h _
  | chunkSerialize =>
    exact invAfter_withChunk h fun c hc =>
      invAfter_emit h ((frame_length c).trans_le (Nat.add_le_add_left hc.data_length_le 12))
  | pngClear => exact invAfter_done (h.setSeq (Nat.zero_le _) nofun)
  | pngParse => exact invAfter_execPngParse h
  | pngAppend => exact invAfter_execPngAppend h
  | pngFind => exact invAfter_execPngFind h
  | pngRemoveFirst => exact invAfter_execPngRemoveFirst h
  | pngCount => exact invAfter_done (h.setResult _)
  | pngGet => exact invAfter_execPngGet h
  | pngSerialize => exact invAfter_emit h le_rfl
  | pngSignature => exact invAfter_done (h.memWrite_short (by decide))

/-! ## The host events and the step -/

theorem invAfter_hostWriteIn (h : s.Inv) (b : Bytes) : InvAfter (hostWriteIn b s) := by
  obtain hfits | hover := le_or_gt b.length s.cfg.maxIn
  · rw [hostWriteIn_fits hfits]
    exact invAfter_next (h.setInput hfits)
  · rw [hostWriteIn_over hover]
    exact invAfter_refused _

theorem invAfter_hostCmd (h : s.Inv) (op : Byte) : InvAfter (hostCmd op s) := by
  cases hop : decode op with
  | ok i => rw [hostCmd_assigned hop]; exact invAfter_exec h i
  | error r => rw [hostCmd_unassigned hop]; exact invAfter_next (h.raise _)

theorem invAfter_hostEvent (h : s.Inv) (e : HostEvent) : InvAfter (hostEvent e s) := by
  cases e with
  | writeIn b => exact invAfter_hostWriteIn h b
  | writeArg v => exact invAfter_next (h.setArg v)
  | cmd op => exact invAfter_hostCmd h op
  | read r => exact invAfter_next (h.withHost _ _)
  | readOut => exact invAfter_next (h.withHost _ _)
  | readIn => exact invAfter_next (h.withHost _ _)
  | reset => exact invAfter_next ((State.Inv.resetOf h.config).withHost _ _)

/-- Settles O56: a step is idle or one host event, and every host event keeps the invariant. -/
theorem everyStepKeepsTheInvariant : Obligations.EveryStepKeepsTheInvariant := by
  intro s t h
  cases hp : s.pending with
  | nil => rw [step_idle hp]; exact invAfter_next h t
  | cons e rest => rw [step_event hp]; exact invAfter_hostEvent (h.withHost rest s.answers) e t

end Sys2Proof.Machine
end

section
/-! Settles O58, derived under 10_state.md R31: what stands behind a cleared valid bit reaches no output. Two states that agree
everywhere else are carried side by side through each update, each shared operation, the commands and the host events. -/

namespace Sys2Proof.Machine

variable {s s' : State}

/-! ## One rule for each update of the state -/

namespace State.SameVisible

theorem setStatus (h : s.SameVisible s') (v : Byte) : (s.setStatus v).SameVisible (s'.setStatus v) :=
  { h with status := rfl }

theorem raise (h : s.SameVisible s') (e : ErrorKind) : (s.raise e).SameVisible (s'.raise e) := h.setStatus e.code

theorem setArg (h : s.SameVisible s') (v : Word) : (s.setArg v).SameVisible (s'.setArg v) := { h with arg := rfl }

theorem setResult (h : s.SameVisible s') {v v' : Word} (hv : v = v') : (s.setResult v).SameVisible (s'.setResult v') :=
  { h with result := hv }

theorem setInput (h : s.SameVisible s') (b : Bytes) : (s.setInput b).SameVisible (s'.setInput b) := { h with input := rfl }

theorem memWrite (h : s.SameVisible s') {v v' : Bytes} (hv : v = v') : (s.memWrite v).SameVisible (s'.memWrite v') :=
  { h with output := hv }

theorem loadType (h : s.SameVisible s') (u : TypeCode) : (s.loadType u).SameVisible (s'.loadType u) :=
  { h with trValid := rfl, trBytes := fun _ => rfl }

theorem loadChunk (h : s.SameVisible s') {c c' : Chunk} (hc : c = c') : (s.loadChunk c).SameVisible (s'.loadChunk c') :=
  { h with crValid := rfl, crChunk := fun _ => hc }

theorem setSeq (h : s.SameVisible s') {l l' : List Chunk} (hl : l = l') : (s.setSeq l).SameVisible (s'.setSeq l') :=
  { h with seq := hl }

theorem setPending (h : s.SameVisible s') (p : List HostEvent) : (s.setPending p).SameVisible (s'.setPending p) :=
  { h with pending := rfl }

theorem answer (h : s.SameVisible s') {a a' : HostAnswer} (ha : a = a') : (s.answer a).SameVisible (s'.answer a') :=
  { h with answers := congrArg₂ (fun l a => l ++ [a]) h.answers ha }

theorem memReadAll (h : s.SameVisible s') : s.memReadAll = s'.memReadAll := by rw [memReadAll_eq, memReadAll_eq, h.input]

end State.SameVisible

/-! ## One rule for each shared operation -/

/-- Where the first outcome is a next state, so is the second, and the two differ only behind cleared valid bits. -/
def SameVisibleAfter (o o' : Host.Outcome State Fault Refusal) : Prop :=
  ∀ t, o = .next t → ∃ t', o' = .next t' ∧ t.SameVisible t'

theorem sameVisibleAfter_next (h : s.SameVisible s') : SameVisibleAfter (.next s) (.next s') :=
  fun _ ht => ⟨s', rfl, by cases ht; exact h⟩

theorem sameVisibleAfter_refused (r : Refusal) (o : Host.Outcome State Fault Refusal) : SameVisibleAfter (.refused r) o := nofun

theorem sameVisibleAfter_done (h : s.SameVisible s') : SameVisibleAfter (done s) (done s') :=
  sameVisibleAfter_next (h.setStatus statusOk)

theorem sameVisibleAfter_fail (h : s.SameVisible s') (e : ErrorKind) : SameVisibleAfter (fail e s) (fail e s') :=
  sameVisibleAfter_next (h.raise e)

theorem sameVisibleAfter_emit (h : s.SameVisible s') (n : Nat) (v : Bytes) : SameVisibleAfter (emit n v s) (emit n v s') := by
  unfold emit
  rw [← h.cfg]
  split
  · exact sameVisibleAfter_fail h _
  · exact sameVisibleAfter_done (h.memWrite rfl)

/-- The operand is read only behind a set valid bit, where the two states agree on it. -/
theorem sameVisibleAfter_withType (h : s.SameVisible s') {k k' : TypeCode → Host.Outcome State Fault Refusal}
    (hk : ∀ u, SameVisibleAfter (k u) (k' u)) : SameVisibleAfter (withType s k) (withType s' k') := by
  cases hv : s.tr.valid with
  | true =>
    rw [withType_valid hv, withType_valid (h.trValid ▸ hv), h.trBytes hv]
    exact hk _
  | false =>
    rw [withType_empty hv, withType_empty (h.trValid ▸ hv)]
    exact sameVisibleAfter_next (h.raise _)

/-- CR's record, too, is read only behind a set valid bit. -/
theorem sameVisibleAfter_withChunk (h : s.SameVisible s') {k k' : Chunk → Host.Outcome State Fault Refusal}
    (hk : ∀ c, SameVisibleAfter (k c) (k' c)) : SameVisibleAfter (withChunk s k) (withChunk s' k') := by
  cases hv : s.cr.valid with
  | true =>
    rw [withChunk_valid hv, withChunk_valid (h.crValid ▸ hv), h.crChunk hv]
    exact hk _
  | false =>
    rw [withChunk_empty hv, withChunk_empty (h.crValid ▸ hv)]
    exact sameVisibleAfter_next (h.raise _)

/-! ## The commands -/

theorem sameVisibleAfter_execU32Dec (h : s.SameVisible s') : SameVisibleAfter (execU32Dec s) (execU32Dec s') := by
  simp only [execU32Dec, memRead_zero, ← h.input]
  split
  · exact sameVisibleAfter_fail h _
  split
  · exact sameVisibleAfter_done (h.setResult rfl)
  · exact sameVisibleAfter_fail h _

theorem sameVisibleAfter_typeFromInput (h : s.SameVisible s') : SameVisibleAfter (typeFromInput s) (typeFromInput s') := by
  simp only [typeFromInput, memRead_zero, ← h.input]
  split
  · exact sameVisibleAfter_fail h _
  split
  · split
    · exact sameVisibleAfter_done (h.loadType _)
    · exact sameVisibleAfter_fail h _
  · exact sameVisibleAfter_fail h _

theorem sameVisibleAfter_typeTest (h : s.SameVisible s') (p : TypeCode → Bool) :
    SameVisibleAfter (typeTest p s) (typeTest p s') :=
  sameVisibleAfter_withType h fun _ => sameVisibleAfter_done (h.setResult rfl)

theorem sameVisibleAfter_execChunkParse (h : s.SameVisible s') : SameVisibleAfter (execChunkParse s) (execChunkParse s') := by
  simp only [execChunkParse, ← h.memReadAll]
  split
  · exact sameVisibleAfter_done ((h.loadChunk rfl).setResult rfl)
  · exact sameVisibleAfter_fail h _

theorem sameVisibleAfter_execChunkDataAsString (h : s.SameVisible s') :
    SameVisibleAfter (execChunkDataAsString s) (execChunkDataAsString s') := by
  refine sameVisibleAfter_withChunk h fun c => ?_
  split
  · exact sameVisibleAfter_emit h _ _
  · exact sameVisibleAfter_fail h _

theorem sameVisibleAfter_execPngParse (h : s.SameVisible s') : SameVisibleAfter (execPngParse s) (execPngParse s') := by
  simp only [execPngParse, ← h.memReadAll, ← h.cfg]
  split
  · exact sameVisibleAfter_fail h _
  split
  · exact sameVisibleAfter_fail h _
  · exact sameVisibleAfter_done ((h.setSeq rfl).setResult rfl)

theorem sameVisibleAfter_execPngAppend (h : s.SameVisible s') : SameVisibleAfter (execPngAppend s) (execPngAppend s') := by
  refine sameVisibleAfter_withChunk h fun c => ?_
  rw [← h.seq, ← h.cfg]
  split
  · exact sameVisibleAfter_fail h _
  · exact sameVisibleAfter_done (h.setSeq rfl)

theorem sameVisibleAfter_execPngFind (h : s.SameVisible s') : SameVisibleAfter (execPngFind s) (execPngFind s') := by
  simp only [execPngFind, ← h.memReadAll, ← h.seq]
  split
  · exact sameVisibleAfter_done ((h.loadChunk rfl).setResult rfl)
  · exact sameVisibleAfter_done (h.setResult rfl)

theorem sameVisibleAfter_execPngRemoveFirst (h : s.SameVisible s') :
    SameVisibleAfter (execPngRemoveFirst s) (execPngRemoveFirst s') := by
  simp only [execPngRemoveFirst, ← h.memReadAll, ← h.seq]
  split
  · exact sameVisibleAfter_done (h.setSeq rfl)
  · exact sameVisibleAfter_fail h _

theorem sameVisibleAfter_execPngGet (h : s.SameVisible s') : SameVisibleAfter (execPngGet s) (execPngGet s') := by
  simp only [execPngGet, ← h.seq, ← h.arg]
  split
  · exact sameVisibleAfter_done (h.loadChunk rfl)
  · exact sameVisibleAfter_fail h _

theorem sameVisibleAfter_execPngSerialize (h : s.SameVisible s') :
    SameVisibleAfter (execPngSerialize s) (execPngSerialize s') := by
  simp only [execPngSerialize, ← h.seq]
  exact sameVisibleAfter_emit h _ _

theorem sameVisibleAfter_exec (h : s.SameVisible s') (i : Instr) : SameVisibleAfter (exec i s) (exec i s') := by
  cases i with
  | crc32 => exact sameVisibleAfter_done (h.setResult (congrArg Machine.crc32 h.memReadAll))
  | u32Dec => exact sameVisibleAfter_execU32Dec h
  | u32Enc => exact sameVisibleAfter_done (h.memWrite (congrArg enc32 h.arg))
  | typeFromStr => exact sameVisibleAfter_typeFromInput h
  | typeFromBytes => exact sameVisibleAfter_typeFromInput h
  | typeRead => exact sameVisibleAfter_withType h fun _ => sameVisibleAfter_done (h.memWrite rfl)
  | typeIsValid => exact sameVisibleAfter_typeTest h _
  | typeIsCritical => exact sameVisibleAfter_typeTest h _
  | typeIsPublic => exact sameVisibleAfter_typeTest h _
  | typeIsReservedBitValid => exact sameVisibleAfter_typeTest h _
  | typeIsSafeToCopy => exact sameVisibleAfter_typeTest h _
  | chunkNew =>
    exact sameVisibleAfter_withType h fun u => sameVisibleAfter_done (h.loadChunk (congrArg (newChunk u) h.memReadAll))
  | chunkParse => exact sameVisibleAfter_execChunkParse h
  | chunkLength => exact sameVisibleAfter_withChunk h fun _ => sameVisibleAfter_done (h.setResult rfl)
  | chunkType =>
    exact sameVisibleAfter_withChunk h fun c => sameVisibleAfter_done ((h.loadType c.type).memWrite (v := c.type.toBytes) rfl)
  | chunkData => exact sameVisibleAfter_withChunk h fun c => sameVisibleAfter_emit h c.length.toNat c.data
  | chunkCrc => exact sameVisibleAfter_withChunk h fun _ => sameVisibleAfter_done (h.setResult rfl)
  | chunkDataAsString => exact sameVisibleAfter_execChunkDataAsString h
  | chunkSerialize =>
    exact sameVisibleAfter_withChunk h fun c => sameVisibleAfter_emit h (12 + c.length.toNat) (frame c)
  | pngClear => exact sameVisibleAfter_done (h.setSeq rfl)
  | pngParse => exact sameVisibleAfter_execPngParse h
  | pngAppend => exact sameVisibleAfter_execPngAppend h
  | pngFind => exact sameVisibleAfter_execPngFind h
  | pngRemoveFirst => exact sameVisibleAfter_execPngRemoveFirst h
  | pngCount => exact sameVisibleAfter_done (h.setResult (by rw [h.seq]))
  | pngGet => exact sameVisibleAfter_execPngGet h
  | pngSerialize => exact sameVisibleAfter_execPngSerialize h
  | pngSignature => exact sameVisibleAfter_done (h.memWrite rfl)

/-! ## The host events and the step -/

/-- No register the host reads lies behind a valid bit. -/
theorem State.SameVisible.hostReg_eq (h : s.SameVisible s') (r : HostReg) : hostReg r s = hostReg r s' := by
  cases r with
  | status => exact congrArg HostAnswer.byte h.status
  | arg => exact congrArg HostAnswer.word h.arg
  | result => exact congrArg HostAnswer.word h.result
  | inLen => exact congrArg (fun b : Bytes => HostAnswer.word (BitVec.ofNat 32 b.length)) h.input
  | outLen => exact congrArg (fun b : Bytes => HostAnswer.word (BitVec.ofNat 32 b.length)) h.output

theorem sameVisibleAfter_hostWriteIn (h : s.SameVisible s') (b : Bytes) :
    SameVisibleAfter (hostWriteIn b s) (hostWriteIn b s') := by
  obtain hfits | hover := le_or_gt b.length s.cfg.maxIn
  · rw [hostWriteIn_fits hfits, hostWriteIn_fits (h.cfg ▸ hfits)]
    exact sameVisibleAfter_next (h.setInput b)
  · rw [hostWriteIn_over hover]
    exact sameVisibleAfter_refused _ _

theorem sameVisibleAfter_hostCmd (h : s.SameVisible s') (op : Byte) : SameVisibleAfter (hostCmd op s) (hostCmd op s') := by
  cases hop : decode op with
  | ok i => rw [hostCmd_assigned hop, hostCmd_assigned hop]; exact sameVisibleAfter_exec h i
  | error r => rw [hostCmd_unassigned hop, hostCmd_unassigned hop]; exact sameVisibleAfter_next (h.raise _)

/-- Reset gives both states the same block and keeps the parameters and the host's side, on which they agree. -/
theorem sameVisibleAfter_hostReset (h : s.SameVisible s') : SameVisibleAfter (hostReset s) (hostReset s') := by
  rw [hostReset, hostReset, ← h.cfg, ← h.pending, ← h.answers]
  exact sameVisibleAfter_next ⟨rfl, rfl, rfl, rfl, rfl, rfl, rfl, fun _ => rfl, rfl, fun _ => rfl, rfl, rfl, rfl⟩

theorem sameVisibleAfter_hostEvent (h : s.SameVisible s') (e : HostEvent) :
    SameVisibleAfter (hostEvent e s) (hostEvent e s') := by
  cases e with
  | writeIn b => exact sameVisibleAfter_hostWriteIn h b
  | writeArg v => exact sameVisibleAfter_next (h.setArg v)
  | cmd op => exact sameVisibleAfter_hostCmd h op
  | read r => exact sameVisibleAfter_next (h.answer (h.hostReg_eq r))
  | readOut => exact sameVisibleAfter_next (h.answer (congrArg HostAnswer.bytes h.output))
  | readIn => exact sameVisibleAfter_next (h.answer (congrArg HostAnswer.bytes h.input))
  | reset => exact sameVisibleAfter_hostReset h

/-- Settles O58: the two states have the same events to come, so their steps are both idle or take the same event. -/
theorem unreadableBytesNeverReachAnOutput : Obligations.UnreadableBytesNeverReachAnOutput := by
  intro s s' t h
  cases hp : s.pending with
  | nil =>
    rw [step_idle hp, step_idle (h.pending ▸ hp)]
    exact sameVisibleAfter_next h t
  | cons e rest =>
    rw [step_event hp, step_event (h.pending ▸ hp)]
    exact sameVisibleAfter_hostEvent (h.setPending rest) e t

end Sys2Proof.Machine
end

section
/-! Settles O53 (20_memory.md R39): a command that only reads ends with a word in RESULT or with an error, and which of the two,
word and error included, is read off its operands alone. -/

namespace Sys2Proof.Machine

variable {s s' : State} {k k' : TypeCode → Host.Outcome State Fault Refusal} {kc kc' : Chunk → Host.Outcome State Fault Refusal}

/-- `s` after a command that only reads: completed with the word in RESULT, or ended in the error. -/
def State.report (s : State) : Except ErrorKind Word → State
  | .ok v => (s.setResult v).setStatus statusOk
  | .error e => s.raise e

/-- The two outcomes are those of `s` and `s'` after one report, the same for both. -/
def SameReport (s s' : State) (o o' : Host.Outcome State Fault Refusal) : Prop :=
  ∃ r, o = .next (s.report r) ∧ o' = .next (s'.report r)

/-! ## One rule for each shared operation -/

theorem sameReport_done {v v' : Word} (hv : v = v') : SameReport s s' (done (s.setResult v)) (done (s'.setResult v')) := by
  subst hv
  exact ⟨.ok v, rfl, rfl⟩

theorem sameReport_fail (e : ErrorKind) : SameReport s s' (fail e s) (fail e s') := ⟨.error e, rfl, rfl⟩

theorem sameReport_withType (h : s.tr = s'.tr) (hk : ∀ u, SameReport s s' (k u) (k' u)) :
    SameReport s s' (withType s k) (withType s' k') := by
  simp only [withType, ← h]
  split
  · exact hk _
  · exact sameReport_fail _

theorem sameReport_withChunk (h : s.cr = s'.cr) (hk : ∀ c, SameReport s s' (kc c) (kc' c)) :
    SameReport s s' (withChunk s kc) (withChunk s' kc') := by
  simp only [withChunk, ← h]
  split
  · exact hk _
  · exact sameReport_fail _

/-! ## The commands that only read -/

theorem sameReport_execCrc32 (h : s.input = s'.input) : SameReport s s' (execCrc32 s) (execCrc32 s') :=
  sameReport_done (by rw [memReadAll_eq, memReadAll_eq, h])

theorem sameReport_execU32Dec (h : s.input = s'.input) : SameReport s s' (execU32Dec s) (execU32Dec s') := by
  simp only [execU32Dec, memRead_zero, ← h]
  split
  · exact sameReport_fail _
  split
  · exact sameReport_done rfl
  · exact sameReport_fail _

theorem sameReport_typeTest (h : s.tr = s'.tr) (p : TypeCode → Bool) : SameReport s s' (typeTest p s) (typeTest p s') :=
  sameReport_withType h fun _ => sameReport_done rfl

theorem sameReport_execChunkLength (h : s.cr = s'.cr) : SameReport s s' (execChunkLength s) (execChunkLength s') :=
  sameReport_withChunk h fun _ => sameReport_done rfl

theorem sameReport_execChunkCrc (h : s.cr = s'.cr) : SameReport s s' (execChunkCrc s) (execChunkCrc s') :=
  sameReport_withChunk h fun _ => sameReport_done rfl

theorem sameReport_execPngCount (h : s.seq = s'.seq) : SameReport s s' (execPngCount s) (execPngCount s') :=
  sameReport_done (by rw [h])

/-- R39's list. No command on it reads ARG. -/
theorem sameReport_exec {i : Instr} (hi : i ∈ [Instr.crc32, .u32Dec, .typeIsValid, .typeIsCritical, .typeIsPublic,
      .typeIsReservedBitValid, .typeIsSafeToCopy, .chunkLength, .chunkCrc, .pngCount])
    (hinput : s.input = s'.input) (htr : s.tr = s'.tr) (hcr : s.cr = s'.cr) (hseq : s.seq = s'.seq) :
    SameReport s s' (exec i s) (exec i s') := by
  simp only [List.mem_cons, List.not_mem_nil, or_false] at hi
  obtain rfl | rfl | rfl | rfl | rfl | rfl | rfl | rfl | rfl | rfl := hi
  · exact sameReport_execCrc32 hinput
  · exact sameReport_execU32Dec hinput
  · exact sameReport_typeTest htr TypeCode.isValid
  · exact sameReport_typeTest htr TypeCode.isCritical
  · exact sameReport_typeTest htr TypeCode.isPublic
  · exact sameReport_typeTest htr TypeCode.isReservedBitValid
  · exact sameReport_typeTest htr TypeCode.isSafeToCopy
  · exact sameReport_execChunkLength hcr
  · exact sameReport_execChunkCrc hcr
  · exact sameReport_execPngCount hseq

/-- Settles O53: both states end in the same report, and a report writes STATUS and RESULT alone. -/
theorem readingCommandsGiveTheSameAnswer : Obligations.ReadingCommandsGiveTheSameAnswer := by
  intro i s s' t t' hi hinput _ htr hcr hseq ht ht'
  obtain ⟨r, hr, hr'⟩ := sameReport_exec hi hinput htr hcr hseq
  obtain rfl : s.report r = t := Host.Outcome.next.inj (hr.symm.trans ht)
  obtain rfl : s'.report r = t' := Host.Outcome.next.inj (hr'.symm.trans ht')
  cases r with
  | ok v => exact ⟨rfl, fun _ => rfl, rfl, rfl, rfl, rfl, rfl⟩
  | error e => exact ⟨rfl, fun hok => absurd hok e.code_ne_ok, rfl, rfl, rfl, rfl, rfl⟩

end Sys2Proof.Machine
end

section
/-! Settles O51 (30_encoding.md R52): what each command may write. The table is read by column: for each piece of the block's
state, the commands whose row names it. First one rule for each update of the state and each shared operation, then the
commands. -/

namespace Sys2Proof.Machine

variable {s t : State} {i : Instr}

/-- The commands whose row of R52 names RESULT. -/
def resultWriters : List Instr :=
  [.crc32, .u32Dec, .typeIsValid, .typeIsCritical, .typeIsPublic, .typeIsReservedBitValid, .typeIsSafeToCopy, .chunkParse,
   .chunkLength, .chunkCrc, .pngParse, .pngFind, .pngCount]

/-- The commands whose row of R52 names OUT. -/
def outputWriters : List Instr :=
  [.u32Enc, .typeRead, .chunkType, .chunkData, .chunkDataAsString, .chunkSerialize, .pngSerialize, .pngSignature]

/-- The commands whose row of R52 names TR. -/
def typeWriters : List Instr := [.typeFromStr, .typeFromBytes, .chunkType]

/-- The commands whose row of R52 names CR. -/
def chunkWriters : List Instr := [.chunkNew, .chunkParse, .pngFind, .pngGet]

/-- The commands whose row of R52 names SEQ. -/
def seqWriters : List Instr := [.pngClear, .pngParse, .pngAppend, .pngRemoveFirst]

/-- From `s` to `t` nothing changes, of RESULT, OUT, TR, CR and SEQ, but what R52's row of `i` names. -/
structure WritesItsRow (i : Instr) (s t : State) : Prop where
  result : i ∉ resultWriters → t.result = s.result
  output : i ∉ outputWriters → t.output = s.output
  type   : i ∉ typeWriters → t.tr = s.tr
  chunk  : i ∉ chunkWriters → t.cr = s.cr
  seq    : i ∉ seqWriters → t.seq = s.seq

/-! ## One rule for each update of the state -/

namespace WritesItsRow

theorem refl : WritesItsRow i s s := ⟨fun _ => rfl, fun _ => rfl, fun _ => rfl, fun _ => rfl, fun _ => rfl⟩

theorem setStatus (h : WritesItsRow i s t) (v : Byte) : WritesItsRow i s (t.setStatus v) := { h with }

theorem setResult (h : WritesItsRow i s t) (v : Word) (hi : i ∈ resultWriters := by decide) :
    WritesItsRow i s (t.setResult v) := { h with result := absurd hi }

theorem memWrite (h : WritesItsRow i s t) (v : Bytes) (hi : i ∈ outputWriters := by decide) :
    WritesItsRow i s (t.memWrite v) := { h with output := absurd hi }

theorem loadType (h : WritesItsRow i s t) (u : TypeCode) (hi : i ∈ typeWriters := by decide) :
    WritesItsRow i s (t.loadType u) := { h with type := absurd hi }

theorem loadChunk (h : WritesItsRow i s t) (c : Chunk) (hi : i ∈ chunkWriters := by decide) :
    WritesItsRow i s (t.loadChunk c) := { h with chunk := absurd hi }

theorem setSeq (h : WritesItsRow i s t) (l : List Chunk) (hi : i ∈ seqWriters := by decide) :
    WritesItsRow i s (t.setSeq l) := { h with seq := absurd hi }

end WritesItsRow

/-! ## One rule for each shared operation -/

/-- Whatever next state the outcome has, only what R52's row of `i` names has changed from `s`. -/
def RowAfter (i : Instr) (s : State) (o : Host.Outcome State Fault Refusal) : Prop := ∀ t, o = .next t → WritesItsRow i s t

theorem rowAfter_done (h : WritesItsRow i s t) : RowAfter i s (done t) := fun _ ht => by cases ht; exact h.setStatus _

theorem rowAfter_fail (e : ErrorKind) : RowAfter i s (fail e s) := fun _ ht => by cases ht; exact .setStatus .refl _

theorem rowAfter_emit (n : Nat) (v : Bytes) (hi : i ∈ outputWriters := by decide) : RowAfter i s (emit n v s) := by
  unfold emit
  split
  · exact rowAfter_fail _
  · exact rowAfter_done (.memWrite .refl v hi)

theorem rowAfter_withType {k : TypeCode → Host.Outcome State Fault Refusal} (hk : ∀ u, RowAfter i s (k u)) :
    RowAfter i s (withType s k) := by
  unfold withType
  split
  · exact hk _
  · exact rowAfter_fail _

theorem rowAfter_withChunk {k : Chunk → Host.Outcome State Fault Refusal} (hk : ∀ c, RowAfter i s (k c)) :
    RowAfter i s (withChunk s k) := by
  unfold withChunk
  split
  · exact hk _
  · exact rowAfter_fail _

/-! ## The commands -/

theorem rowAfter_execU32Dec : RowAfter .u32Dec s (execU32Dec s) := by
  unfold execU32Dec
  split
  · exact rowAfter_fail _
  split
  · exact rowAfter_done (.setResult .refl _)
  · exact rowAfter_fail _

theorem rowAfter_typeFromInput (hi : i ∈ typeWriters := by decide) : RowAfter i s (typeFromInput s) := by
  unfold typeFromInput
  split
  · exact rowAfter_fail _
  split
  · split
    · exact rowAfter_done (.loadType .refl _ hi)
    · exact rowAfter_fail _
  · exact rowAfter_fail _

theorem rowAfter_typeTest (p : TypeCode → Bool) (hi : i ∈ resultWriters := by decide) : RowAfter i s (typeTest p s) :=
  rowAfter_withType fun _ => rowAfter_done (.setResult .refl _ hi)

theorem rowAfter_execChunkParse : RowAfter .chunkParse s (execChunkParse s) := by
  unfold execChunkParse
  split
  · exact rowAfter_done (.setResult (.loadChunk .refl _) _)
  · exact rowAfter_fail _

theorem rowAfter_execChunkDataAsString : RowAfter .chunkDataAsString s (execChunkDataAsString s) := by
  refine rowAfter_withChunk fun c => ?_
  split
  · exact rowAfter_emit _ _
  · exact rowAfter_fail _

theorem rowAfter_execPngParse : RowAfter .pngParse s (execPngParse s) := by
  unfold execPngParse
  split
  · exact rowAfter_fail _
  split
  · exact rowAfter_fail _
  · exact rowAfter_done (.setResult (.setSeq .refl _) _)

theorem rowAfter_execPngAppend : RowAfter .pngAppend s (execPngAppend s) := by
  refine rowAfter_withChunk fun c => ?_
  split
  · exact rowAfter_fail _
  · exact rowAfter_done (.setSeq .refl _)

theorem rowAfter_execPngFind : RowAfter .pngFind s (execPngFind s) := by
  unfold execPngFind
  split
  · exact rowAfter_done (.setResult (.loadChunk .refl _) _)
  · exact rowAfter_done (.setResult .refl _)

theorem rowAfter_execPngRemoveFirst : RowAfter .pngRemoveFirst s (execPngRemoveFirst s) := by
  unfold execPngRemoveFirst
  split
  · exact rowAfter_done (.setSeq .refl _)
  · exact rowAfter_fail _

theorem rowAfter_execPngGet : RowAfter .pngGet s (execPngGet s) := by
  unfold execPngGet
  split
  · exact rowAfter_done (.loadChunk .refl _)
  · exact rowAfter_fail _

theorem rowAfter_exec (i : Instr) (s : State) : RowAfter i s (exec i s) := by
  cases i with
  | crc32 => exact rowAfter_done (.setResult .refl _)
  | u32Dec => exact rowAfter_execU32Dec
  | u32Enc => exact rowAfter_done (.memWrite .refl _)
  | typeFromStr => exact rowAfter_typeFromInput
  | typeFromBytes => exact rowAfter_typeFromInput
  | typeRead => exact rowAfter_withType fun _ => rowAfter_done (.memWrite .refl _)
  | typeIsValid => exact rowAfter_typeTest _
  | typeIsCritical => exact rowAfter_typeTest _
  | typeIsPublic => exact rowAfter_typeTest _
  | typeIsReservedBitValid => exact rowAfter_typeTest _
  | typeIsSafeToCopy => exact rowAfter_typeTest _
  | chunkNew => exact rowAfter_withType fun _ => rowAfter_done (.loadChunk .refl _)
  | chunkParse => exact rowAfter_execChunkParse
  | chunkLength => exact rowAfter_withChunk fun _ => rowAfter_done (.setResult .refl _)
  | chunkType => exact rowAfter_withChunk fun _ => rowAfter_done (.memWrite (.loadType .refl _) _)
  | chunkData => exact rowAfter_withChunk fun _ => rowAfter_emit _ _
  | chunkCrc => exact rowAfter_withChunk fun _ => rowAfter_done (.setResult .refl _)
  | chunkDataAsString => exact rowAfter_execChunkDataAsString
  | chunkSerialize => exact rowAfter_withChunk fun _ => rowAfter_emit _ _
  | pngClear => exact rowAfter_done (.setSeq .refl _)
  | pngParse => exact rowAfter_execPngParse
  | pngAppend => exact rowAfter_execPngAppend
  | pngFind => exact rowAfter_execPngFind
  | pngRemoveFirst => exact rowAfter_execPngRemoveFirst
  | pngCount => exact rowAfter_done (.setResult .refl _)
  | pngGet => exact rowAfter_execPngGet
  | pngSerialize => exact rowAfter_emit _ _
  | pngSignature => exact rowAfter_done (.memWrite .refl _)

/-- Settles O51: the host's side stays whatever the command, and the rest but for the command's row. -/
theorem commandsWriteOnlyWhatTheTableNames : Obligations.CommandsWriteOnlyWhatTheTableNames := by
  intro i s t h
  obtain ⟨hresult, houtput, htype, hchunk, hseq⟩ := rowAfter_exec i s t h
  exact ⟨exec_host_side h, hresult, houtput, htype, hchunk, hseq⟩

end Sys2Proof.Machine
end

section
/-! The command byte (30_encoding.md R42, R44): the decoder and the encoder are each other's inverse, and the opcode table
is what they agree on. Settles O1, O2 and O3. -/

namespace Sys2Proof.Laws.OpcodeRow

/-- The family OpcodeRow, for every command at once. -/
theorem statement (i : Instr) : Statement i := by
  cases i
  exacts [crc32, u32Dec, u32Enc, typeFromStr, typeFromBytes, typeRead, typeIsValid, typeIsCritical, typeIsPublic,
    typeIsReservedBitValid, typeIsSafeToCopy, chunkNew, chunkParse, chunkLength, chunkType, chunkData, chunkCrc,
    chunkDataAsString, chunkSerialize, pngClear, pngParse, pngAppend, pngFind, pngRemoveFirst, pngCount, pngGet,
    pngSerialize, pngSignature]

end Sys2Proof.Laws.OpcodeRow

namespace Sys2Proof

theorem decode_encode (i : Instr) : decode (encode i) = .ok i :=
  let ⟨_, hdecode, _⟩ := Laws.OpcodeRow.statement i
  hdecode

theorem decodeBytes_encode (i : Instr) (rest : Bytes) : decodeBytes (encode i :: rest) = .ok (i, rest) :=
  let ⟨_, _, hbytes⟩ := Laws.OpcodeRow.statement i
  hbytes rest

/-- The F and N columns and the opcode column of R42 agree: Opcode = (F << 4) | N. -/
theorem encode_toNat_of_fields {f n : Nat} {i : Instr} (h : instrOfFields f n = some i) : (encode i).toNat = 16 * f + n := by
  unfold instrOfFields at h
  split at h <;> cases h <;> rfl

theorem fields_toNat (op : Byte) : 16 * opFamily op + opFunction op = op.toNat := by
  have := op.isLt
  simp only [opFamily, opFunction, BitVec.extractLsb_toNat, Nat.shiftRight_eq_div_pow]
  omega

/-- R42's whole-byte match: a byte that decodes is the command word of what it decodes to, and nothing else is. -/
theorem decode_eq_ok_iff {op : Byte} {i : Instr} : decode op = .ok i ↔ op = encode i := by
  refine ⟨fun h => ?_, fun h => h ▸ decode_encode i⟩
  unfold decode at h
  split at h
  · next hf =>
    cases h
    exact BitVec.eq_of_toNat_eq ((fields_toNat op).symm.trans (encode_toNat_of_fields hf).symm)
  · cases h

/-- Settles O1: the 28 rows are each command, in the table's order, under its command word. -/
theorem decodeReadsExactlyTheOpcodeTable : Obligations.DecodeReadsExactlyTheOpcodeTable := by
  intro op i
  change _ ↔ (op, i) ∈ Machine.allInstrs.map fun i => (encode i, i)
  simp only [List.mem_map, Prod.mk.injEq, decode_eq_ok_iff]
  exact ⟨fun h => ⟨i, Machine.mem_allInstrs i, h.symm, rfl⟩, fun ⟨_, _, h, hi⟩ => hi ▸ h.symm⟩

/-- Settles O2. -/
theorem decodeOfEncodeIsTheCommand : Obligations.DecodeOfEncodeIsTheCommand :=
  fun i rest _ => decodeBytes_encode i rest

/-- A table word is its command word and no byte more. -/
theorem decodeTableWord_encode (i : Instr) : decodeTableWord 8 (encode i).toNat = some i := by
  have hbytes : tableBytes (8 / 8) (encode i).toNat = [encode i] := by simp [tableBytes]
  rw [decodeTableWord, hbytes, decodeBytes_encode]

/-- Settles O3: the four words are the command words of their commands. -/
theorem writtenOutWordsDecode : Obligations.WrittenOutWordsDecode :=
  ⟨decodeTableWord_encode .u32Dec, decodeTableWord_encode .typeIsSafeToCopy, decodeTableWord_encode .chunkDataAsString,
    decodeTableWord_encode .pngRemoveFirst⟩

end Sys2Proof
end

section
/-! What a step does with each host event (30_encoding.md R43, R50). Settles O4 to O8. -/

namespace Sys2Proof.Machine

variable {s : State} {rest : List HostEvent}

theorem step_cmd {op : Byte} (h : s.pending = .cmd op :: rest) : step s = hostCmd op (s.setPending rest) := step_event h

theorem step_writeIn {b : Bytes} (h : s.pending = .writeIn b :: rest) : step s = hostWriteIn b (s.setPending rest) :=
  step_event h

/-- The four ranges of assigned command bytes (R42). -/
theorem encode_ranges (i : Instr) :
    (0x01 ≤ (encode i).toNat ∧ (encode i).toNat ≤ 0x03) ∨ (0x10 ≤ (encode i).toNat ∧ (encode i).toNat ≤ 0x17) ∨
      (0x20 ≤ (encode i).toNat ∧ (encode i).toNat ≤ 0x27) ∨ (0x30 ≤ (encode i).toNat ∧ (encode i).toNat ≤ 0x38) := by
  cases i <;> decide

/-- Settles O4. -/
theorem stepRunsTheDecodedCommand : Obligations.StepRunsTheDecodedCommand := by
  intro s op rest i hp hop _
  exact (step_cmd hp).trans (hostCmd_assigned hop)

/-- Settles O5: a byte that decoded would be a command word, and those lie outside R43's ranges. -/
theorem unassignedOpcodeSetsOnlyStatus : Obligations.UnassignedOpcodeSetsOnlyStatus := by
  intro s op rest hp hop
  cases hd : decode op with
  | error r => exact (step_cmd hp).trans (hostCmd_unassigned hd)
  | ok i =>
    obtain rfl := decode_eq_ok_iff.1 hd
    have := encode_ranges i
    omega

/-- Settles O6. -/
theorem hostWriteInReplacesTheContent : Obligations.HostWriteInReplacesTheContent := by
  intro s b rest hp
  exact ⟨fun hfits => (step_writeIn hp).trans (hostWriteIn_fits hfits),
    fun hover => (step_writeIn hp).trans (hostWriteIn_over hover)⟩

/-- Settles O7. -/
theorem hostWriteArgLoadsArg : Obligations.HostWriteArgLoadsArg := by
  intro s v rest hp
  rw [step_event hp]
  rfl

/-- Settles O8: each of the seven reads appends its answer and does nothing else. -/
theorem hostReadsReturnTheValueAndChangeNothing : Obligations.HostReadsReturnTheValueAndChangeNothing := by
  intro s e rest hp a ha
  rw [step_event hp]
  simp only [List.mem_cons, Prod.mk.injEq, List.not_mem_nil, or_false] at ha
  obtain ⟨rfl, rfl⟩ | ⟨rfl, rfl⟩ | ⟨rfl, rfl⟩ | ⟨rfl, rfl⟩ | ⟨rfl, rfl⟩ | ⟨rfl, rfl⟩ | ⟨rfl, rfl⟩ := ha <;> rfl

end Sys2Proof.Machine
end

section
/-! The host-program text of 30_encoding.md R51. Settles O59 and O60. What R51 leaves open of the text, the case of the digits
and the end of quoted text among it, is the model's choice (log entry 6). -/

namespace Sys2Proof.Machine

variable {w rest : List Char} {i : Instr}

/-! ## Mnemonic lines -/

/-- Neither a blank nor `;` stands in a mnemonic. -/
theorem leadingWord_mnemonic (i : Instr) : leadingWord (mnemonic i).toList = (mnemonic i).toList := by
  cases i <;> rfl

theorem leadingWord_append (hw : leadingWord w = w) (hrest : leadingWord rest = []) : leadingWord (w ++ rest) = w := by
  rw [leadingWord, List.takeWhile_append_of_pos (List.takeWhile_eq_self_iff.1 hw), ← leadingWord, hrest, List.append_nil]

/-- A line that begins with a word has no leading blanks and is neither empty nor a comment. -/
theorem word_begins_line (hw : leadingWord w = w) (hne : w ≠ []) (rest : List Char) :
    skipBlanks (w ++ rest) = w ++ rest ∧ lineEnds (w ++ rest) = false := by
  obtain ⟨c, v, rfl⟩ := List.exists_cons_of_ne_nil hne
  obtain ⟨hblank, hcomment⟩ : isBlank c = false ∧ c ≠ ';' := by
    simpa using List.takeWhile_eq_self_iff.1 hw c List.mem_cons_self
  simp [skipBlanks, lineEnds, hblank, hcomment]

theorem ne_of_instrOfName {v : List Char} (hw : instrOfName w = some i) (hv : instrOfName v = none) : w ≠ v := by
  rintro rfl
  simp [hw] at hv

/-- A line of a word that names a command, with nothing but blanks or a comment after it. -/
theorem assembleLine_command (hname : instrOfName w = some i) (hw : leadingWord w = w) (hrest : leadingWord rest = [])
    (hends : lineEnds rest = true) : assembleLine (w ++ rest) = some (some (.cmd (encode i))) := by
  have hwin : w ≠ ['w', 'i', 'n'] := ne_of_instrOfName hname (by decide)
  have hwarg : w ≠ ['w', 'a', 'r', 'g'] := ne_of_instrOfName hname (by decide)
  obtain ⟨hskip, hbody⟩ := word_begins_line hw (ne_of_instrOfName hname (by decide)) rest
  simp [assembleLine, hskip, hbody, leadingWord_append hw hrest, hwin, hwarg, hname, hends]

theorem assembleLine_mnemonic (i : Instr) (hrest : leadingWord rest = []) (hends : lineEnds rest = true) :
    assembleLine ((mnemonic i).toList ++ rest) = some (some (.cmd (encode i))) :=
  assembleLine_command (instrOfName_mnemonic i) (leadingWord_mnemonic i) hrest hends

theorem assembleLine_mnemonic_comment (i : Instr) (comment : List Char) :
    assembleLine ((mnemonic i).toList ++ ' ' :: ';' :: comment) = some (some (.cmd (encode i))) :=
  assembleLine_mnemonic i rfl rfl

/-- A listing line is the mnemonic with the opcode in a comment. -/
theorem listing_eq (i : Instr) : listing i = (mnemonic i).toList ++ ' ' :: ';' :: (" 0x".toList ++ hexByte (encode i)) :=
  List.append_assoc _ _ _

/-- Settles O59. -/
theorem mnemonicLinesIssueTheirCommand : Obligations.MnemonicLinesIssueTheirCommand := by
  intro i comment _
  refine ⟨?_, assembleLine_mnemonic_comment i comment, ?_⟩
  · simpa using assembleLine_mnemonic (rest := []) i rfl rfl
  · rw [listing_eq]
    exact assembleLine_mnemonic_comment i _

/-! ## `win` and `warg` lines -/

theorem assembleLine_win {l : List Char} {b : Bytes} (h : winOperand (skipBlanks l) = some (b, [])) :
    assembleLine ("win ".toList ++ l) = some (some (.writeIn b)) := by
  have hline : winLine (' ' :: l) = some (.writeIn b) := by
    rw [winLine, show skipBlanks (' ' :: l) = skipBlanks l from rfl, h]
    rfl
  exact congrArg (Option.map some) hline

theorem assembleLine_warg {l : List Char} {v : Nat} (h : value (skipBlanks l) = some (v, [])) (hv : v < 2 ^ 32) :
    assembleLine ("warg ".toList ++ l) = some (some (.writeArg (BitVec.ofNat 32 v))) := by
  have hline : wargLine (' ' :: l) = some (.writeArg (BitVec.ofNat 32 v)) := by
    rw [wargLine, show skipBlanks (' ' :: l) = skipBlanks l from rfl, h]
    exact if_pos ⟨hv, rfl⟩
  exact congrArg (Option.map some) hline

theorem winOperand_hex (b : Bytes) : winOperand ("hex:".toList ++ b.flatMap hexByte) = some (b, []) := hexPairs_hexByte b

theorem quotedText_ascii {text : List Char} (h : ∀ c ∈ text, c.toNat < 128 ∧ c ≠ quoteChar) (rest : List Char) :
    quotedText (text ++ quoteChar :: rest) = some (text.map fun c => BitVec.ofNat 8 c.toNat, rest) := by
  induction text with
  | nil => simp [quotedText]
  | cons c text ih =>
    obtain ⟨⟨hascii, hquote⟩, htext⟩ := List.forall_mem_cons.1 h
    simp [quotedText, hquote, asciiByte, hascii, ih htext]

/-- A byte's two digits read on from the value so far move it up by a byte. -/
theorem digits_hexByte (v : Nat) (b : Byte) (l : List Char) :
    digits hexDigit 16 v (hexByte b ++ l) = digits hexDigit 16 (256 * v + b.toNat) l := by
  have hb := b.isLt
  simp only [hexByte, List.cons_append, List.nil_append, digits, hexDigit_hexChar (b.toNat / 16) (by omega),
    hexDigit_hexChar (b.toNat % 16) (by omega)]
  congr 1
  omega

/-- After `0x` and the digits of a byte a value reads on in hexadecimal. -/
theorem value_hexByte (b : Byte) (l : List Char) :
    value ('0' :: 'x' :: (hexByte b ++ l)) = some (digits hexDigit 16 b.toNat l) := by
  have hfirst : numeral hexDigit 16 (hexByte b ++ l) = some (digits hexDigit 16 0 (hexByte b ++ l)) := by
    have hb := b.isLt
    simp [hexByte, numeral, hexDigit_hexChar (b.toNat / 16) (by omega)]
  rw [value, hfirst, digits_hexByte, Nat.mul_zero, Nat.zero_add]

theorem value_hexBytes (b0 b1 b2 b3 : Byte) :
    value ("0x".toList ++ (hexByte b0 ++ hexByte b1 ++ hexByte b2 ++ hexByte b3)) = some (bigEndian b0 b1 b2 b3, []) := by
  have hvalue : 256 * (256 * (256 * b0.toNat + b1.toNat) + b2.toNat) + b3.toNat = bigEndian b0 b1 b2 b3 := by
    unfold bigEndian
    omega
  calc value ("0x".toList ++ (hexByte b0 ++ hexByte b1 ++ hexByte b2 ++ hexByte b3))
    _ = value ('0' :: 'x' :: (hexByte b0 ++ (hexByte b1 ++ (hexByte b2 ++ (hexByte b3 ++ []))))) := by simp
    _ = some (bigEndian b0 b1 b2 b3, []) := by simp only [value_hexByte, digits_hexByte, digits, hvalue]

theorem bigEndian_lt (b0 b1 b2 b3 : Byte) : bigEndian b0 b1 b2 b3 < 2 ^ 32 :=
  append_toNat b0 b1 b2 b3 ▸ (b0 ++ b1 ++ b2 ++ b3).isLt

/-- Settles O60. -/
theorem winAndWargLinesIssueTheirWrites : Obligations.WinAndWargLinesIssueTheirWrites := by
  refine ⟨fun b => ?_, fun text htext => ?_, fun b0 b1 b2 b3 => ?_⟩
  · exact assembleLine_win (winOperand_hex b)
  · have hascii : ∀ c ∈ text, c.toNat < 128 ∧ c ≠ quoteChar := fun c hc =>
      let ⟨hlt, hquote, _⟩ := htext c hc
      ⟨hlt, hquote⟩
    rw [List.append_assoc]
    exact assembleLine_win (l := quoteChar :: text ++ [quoteChar]) (quotedText_ascii hascii [])
  · exact assembleLine_warg (value_hexBytes b0 b1 b2 b3) (bigEndian_lt b0 b1 b2 b3)

end Sys2Proof.Machine
end

section
/-! The checksum and the big-endian codec of 40_crc_u32.md. Settles O15 and O16 on the functions themselves, and O12, O13 and
O14 on the three commands of family 0. -/

namespace Sys2Proof.Machine

/-! ## The codec -/

/-- Settles O15. -/
theorem u32CodecRoundTrips : Obligations.U32CodecRoundTrips :=
  ⟨fun v => be32_enc32_append v [],
    fun b0 b1 b2 b3 rest => ⟨_, be32_cons b0 b1 b2 b3 rest, append_toNat b0 b1 b2 b3, enc32_append b0 b1 b2 b3⟩⟩

theorem be32_eq_bigEndian (b0 b1 b2 b3 : Byte) (rest : Bytes) :
    be32 (b0 :: b1 :: b2 :: b3 :: rest) = some (BitVec.ofNat 32 (bigEndian b0 b1 b2 b3)) := by
  rw [be32_cons, ← append_toNat, BitVec.ofNat_toNat, BitVec.setWidth_eq]

/-- A byte cut out of a word is the word's number divided down to that byte, the higher bits dropped. -/
theorem enc32_eq_div (v : Word) :
    enc32 v = [BitVec.ofNat 8 (v.toNat / 2 ^ 24), BitVec.ofNat 8 (v.toNat / 2 ^ 16), BitVec.ofNat 8 (v.toNat / 2 ^ 8),
      BitVec.ofNat 8 v.toNat] := by
  simp only [enc32, BitVec.extractLsb', Nat.shiftRight_eq_div_pow, pow_zero, Nat.div_one]

/-! ## The checksum -/

/-- Settles O16: at every byte of the message the lookup takes the register where the eight bit steps take it. -/
theorem tableDrivenCrcIsTheBitwiseCrc : Obligations.TableDrivenCrcIsTheBitwiseCrc := by
  intro m
  have hbyte : crcTableByte = crcByte := funext₂ crcTableByte_eq
  rw [crc32Table, hbyte, crc32]

theorem crc32_eq_foldl_repeat (m : Bytes) :
    crc32 m = m.foldl (fun c b => Nat.repeat crcBit 8 (c ^^^ b.zeroExtend 32)) 0xFFFFFFFF#32 ^^^ 0xFFFFFFFF#32 := by
  have hbyte : crcByte = fun c b => Nat.repeat crcBit 8 (c ^^^ b.zeroExtend 32) :=
    funext₂ fun c b => crcBits_eq_repeat 8 (c ^^^ b.zeroExtend 32)
  rw [crc32, hbyte]

/-! ## The commands -/

theorem exec_crc32 (s : State) : exec .crc32 s = .next { s with result := crc32 s.input, status := 0x00#8 } := by
  change done (s.setResult (crc32 s.memReadAll)) = _
  rw [memReadAll_eq]
  rfl

theorem exec_u32Dec_short {s : State} (h : s.input.length < 4) : exec .u32Dec s = .next { s with status := 0x03#8 } :=
  if_pos h

theorem exec_u32Dec_of_be32 {s : State} {v : Word} (hlen : 4 ≤ s.input.length) (h : be32 (s.input.take 4) = some v) :
    exec .u32Dec s = .next { s with result := v, status := 0x00#8 } := by
  change execU32Dec s = _
  rw [execU32Dec, if_neg (by omega), memRead_zero, h]
  rfl

theorem exec_u32Enc (s : State) : exec .u32Enc s = .next { s with output := enc32 s.arg, status := 0x00#8 } := rfl

/-- Settles O12. -/
theorem crc32PutsTheChecksumOfInputInResult : Obligations.Crc32PutsTheChecksumOfInputInResult := by
  intro s
  rw [exec_crc32, crc32_eq_foldl_repeat]
  rfl

/-- Settles O13. -/
theorem u32DecReadsTheFirstFourBytes : Obligations.U32DecReadsTheFirstFourBytes := by
  refine fun s => ⟨exec_u32Dec_short, fun b0 b1 b2 b3 rest hin => ?_⟩
  have hlen : 4 ≤ s.input.length := by simp [hin]
  have hfirst : be32 (s.input.take 4) = some (BitVec.ofNat 32 (bigEndian b0 b1 b2 b3)) :=
    hin ▸ be32_eq_bigEndian b0 b1 b2 b3 []
  exact exec_u32Dec_of_be32 hlen hfirst

/-- Settles O14. -/
theorem u32EncWritesArgBigEndian : Obligations.U32EncWritesArgBigEndian := by
  intro s
  rw [exec_u32Enc, enc32_eq_div]

end Sys2Proof.Machine
end

section
/-! The type register of 41_chunk_type.md: what the two constructors, the read-out and the five property tests do in every
state. Settles O17, O18, O19 and O20. -/

namespace Sys2Proof.Machine

variable {s : State}

/-! ## The constructors (R62, R63) -/

/-- The two constructors have one pseudocode. -/
theorem exec_typeConstructor {i : Instr} (hi : i = .typeFromStr ∨ i = .typeFromBytes) : exec i s = typeFromInput s := by
  obtain rfl | rfl := hi <;> rfl

theorem typeFromInput_wrongLength (h : s.input.length ≠ 4) : typeFromInput s = .next { s with status := 0x02#8 } := if_pos h

theorem typeFromInput_toBytes {t : TypeCode} (hin : s.input = t.toBytes) :
    typeFromInput s = if t.allLetters then done (s.loadType t) else fail .invalidTypeCode s := by
  rw [typeFromInput, memRead_zero, hin]
  rfl

theorem typeFromInput_letters {t : TypeCode} (hin : s.input = t.toBytes) (ht : ∀ b ∈ t.toBytes, LetterByte b) :
    typeFromInput s = .next { s with tr := ⟨true, t⟩, status := 0x00#8 } :=
  (typeFromInput_toBytes hin).trans (if_pos ((allLetters_iff t).2 ht))

theorem typeFromInput_nonLetter {t : TypeCode} {b : Byte} (hin : s.input = t.toBytes) (hb : b ∈ t.toBytes)
    (hletter : ¬ LetterByte b) : typeFromInput s = .next { s with status := 0x02#8 } :=
  (typeFromInput_toBytes hin).trans (if_neg fun ht => hletter ((allLetters_iff t).1 ht b hb))

/-- Settles O17: an IN of another length fails at once, and an IN of four bytes is a type code, whose letters decide. -/
theorem typeConstructorsAcceptExactlyFourLetters : Obligations.TypeConstructorsAcceptExactlyFourLetters := by
  intro i s hi
  rw [exec_typeConstructor hi]
  refine ⟨fun b0 b1 b2 b3 hin h0 h1 h2 h3 => ?_, fun hbad => ?_⟩
  · exact typeFromInput_letters (t := ⟨b0, b1, b2, b3⟩) hin (by simp [TypeCode.toBytes, h0, h1, h2, h3])
  · by_cases hlen : s.input.length = 4
    · obtain ⟨t, ht⟩ := typeOfBytes_isSome hlen
      have hin := typeOfBytes_some ht
      obtain ⟨b, hb, hletter⟩ := hbad.resolve_left (not_not_intro hlen)
      exact typeFromInput_nonLetter hin (hin ▸ hb) hletter
    · exact typeFromInput_wrongLength hlen

/-! ## The read-out (R64) -/

theorem execTypeRead_valid (h : s.tr.valid = true) :
    execTypeRead s = .next { s with output := s.tr.bytes.toBytes, status := 0x00#8 } := withType_valid h

theorem execTypeRead_empty (h : s.tr.valid = false) : execTypeRead s = .next { s with status := 0x11#8 } := withType_empty h

/-- Settles O18. -/
theorem typeReadCopiesTheTypeToOut : Obligations.TypeReadCopiesTheTypeToOut := fun _ => ⟨execTypeRead_valid, execTypeRead_empty⟩

/-! ## The property tests (R65 to R69) -/

theorem typeTest_valid (h : s.tr.valid = true) (p : TypeCode → Bool) :
    typeTest p s = .next { s with status := 0x00#8, result := boolWord (p s.tr.bytes) } := withType_valid h

theorem typeTest_empty (h : s.tr.valid = false) (p : TypeCode → Bool) : typeTest p s = .next { s with status := 0x11#8 } :=
  withType_empty h

theorem boolWord_eq_ite {b : Bool} {P : Prop} [Decidable P] (h : b = true ↔ P) : boolWord b = if P then 1#32 else 0#32 :=
  if_congr h rfl rfl

/-- A test on a valid TR reports the property it decides. -/
theorem typeTest_valid_iff {p : TypeCode → Bool} {P : Prop} [Decidable P] (h : s.tr.valid = true)
    (hp : p s.tr.bytes = true ↔ P) :
    typeTest p s = .next { s with status := 0x00#8, result := if P then 1#32 else 0#32 } := by
  rw [typeTest_valid h, boolWord_eq_ite hp]

/-- Tests that agree on a valid TR have the same outcome; on an empty TR every test has. -/
theorem typeTest_congr {p q : TypeCode → Bool} (h : s.tr.valid = true → p s.tr.bytes = q s.tr.bytes) :
    typeTest p s = typeTest q s := by
  cases hv : s.tr.valid with
  | true => rw [typeTest_valid hv, typeTest_valid hv, h hv]
  | false => rw [typeTest_empty hv, typeTest_empty hv]

theorem propertyBit_clear_iff (b : Byte) : (!propertyBit b) = true ↔ b &&& 0x20#8 = 0x00#8 := by
  simp [propertyBit_eq]

theorem propertyBit_set_iff (b : Byte) : propertyBit b = true ↔ b &&& 0x20#8 = 0x20#8 := by
  revert b; decide

theorem TypeCode.isValid_iff (t : TypeCode) : t.isValid = true ↔
    (LetterByte t.b0 ∧ LetterByte t.b1 ∧ LetterByte t.b2 ∧ LetterByte t.b3) ∧ t.b2 &&& 0x20#8 = 0x00#8 := by
  have hletters : t.allLetters = true ↔ LetterByte t.b0 ∧ LetterByte t.b1 ∧ LetterByte t.b2 ∧ LetterByte t.b3 := by
    simp [allLetters_iff, TypeCode.toBytes]
  rw [TypeCode.isValid, Bool.and_eq_true, hletters, TypeCode.isReservedBitValid, propertyBit_clear_iff]

/-- Settles O19: each command is `typeTest` of its property. -/
theorem typeTestsReadBitFive : Obligations.TypeTestsReadBitFive := by
  refine fun s => ⟨fun hvalid => ⟨?_, ?_, ?_, ?_, ?_⟩, fun hempty i hi => ?_⟩
  · exact typeTest_valid_iff hvalid (TypeCode.isValid_iff _)
  · exact typeTest_valid_iff (p := TypeCode.isCritical) hvalid (propertyBit_clear_iff _)
  · exact typeTest_valid_iff (p := TypeCode.isPublic) hvalid (propertyBit_clear_iff _)
  · exact typeTest_valid_iff (p := TypeCode.isReservedBitValid) hvalid (propertyBit_clear_iff _)
  · exact typeTest_valid_iff (p := TypeCode.isSafeToCopy) hvalid (propertyBit_set_iff _)
  · simp only [List.mem_cons, List.not_mem_nil, or_false] at hi
    obtain rfl | rfl | rfl | rfl | rfl := hi <;> exact typeTest_empty hempty _

theorem TypeCode.isValid_of_allLetters {t : TypeCode} (h : t.allLetters = true) : t.isValid = t.isReservedBitValid := by
  rw [TypeCode.isValid, h, Bool.true_and]

/-- Settles O20: the invariant has letters in a valid TR, which is all the full test asks beside the reserved bit. -/
theorem fullValidityIsTheReservedBitTest : Obligations.FullValidityIsTheReservedBitTest :=
  fun _ hinv => typeTest_congr fun hvalid => TypeCode.isValid_of_allLetters (hinv.type hvalid)

end Sys2Proof.Machine
end

section
/-! The chunk frame of 42_chunk.md R71 and R80: what FrameParse does at each of its steps, in bytes laid out as a frame.
Settles O31, O22 and O25. -/

namespace Sys2Proof.Machine

/-- Settles O31. -/
theorem frameAndFrameParseAreInverse : Obligations.FrameAndFrameParseAreInverse :=
  ⟨fun _ rest hvalid => frameParse_frame rest hvalid, fun _ _ _ => frameParse_ok_frame⟩

/-! ## The steps of FrameParse -/

theorem frameParse_short {b : Bytes} (h : b.length < 12) : frameParse b = .error .truncatedBuffer := if_pos h

section
variable {l : Word} {t : TypeCode} {rest : Bytes}

theorem be32_length_field : be32 (slice (enc32 l ++ t.toBytes ++ rest) 0 4) = some l := be32_enc32_append l []

theorem typeOfBytes_type_field : typeOfBytes (slice (enc32 l ++ t.toBytes ++ rest) 4 8) = some t := typeOfBytes_toBytes t

/-- R71, step 3: with at least 12 bytes, a type byte that is no letter fails whatever the declared length. -/
theorem frameParse_nonLetter (hlen : 4 ≤ rest.length) (ht : t.allLetters = false) :
    frameParse (enc32 l ++ t.toBytes ++ rest) = .error .invalidTypeCode := by
  unfold frameParse
  rw [if_neg (by simp; omega), be32_length_field, typeOfBytes_type_field]
  simp [ht]

/-- R71, step 4: after the letters, fewer bytes than the frame declares. -/
theorem frameParse_truncated (hlen : 4 ≤ rest.length) (ht : t.allLetters = true)
    (hshort : (enc32 l ++ t.toBytes ++ rest).length < 12 + l.toNat) :
    frameParse (enc32 l ++ t.toBytes ++ rest) = .error .truncatedBuffer := by
  unfold frameParse
  rw [if_neg (by simp; omega), be32_length_field, typeOfBytes_type_field]
  simp only [ht, Bool.not_true, Bool.false_eq_true, if_false, if_pos hshort]

end

/-- Settles O22: the first eight bytes are the encoding of the declared length and a type code, the last four of the frame
the encoding of the stored checksum, and each step of R71 has its lemma above. -/
theorem frameParseFollowsItsSteps : Obligations.FrameParseFollowsItsSteps := by
  refine ⟨fun b => frameParse_short, fun l0 l1 l2 l3 t0 t1 t2 t3 rest b hb hlen => ?_⟩
  obtain ⟨l, hl, hlNat⟩ : ∃ l : Word, enc32 l = [l0, l1, l2, l3] ∧ l.toNat = bigEndian l0 l1 l2 l3 :=
    ⟨_, enc32_append .., append_toNat ..⟩
  obtain ⟨t, htBytes, ht⟩ : ∃ t : TypeCode, t.toBytes = [t0, t1, t2, t3] ∧ t = ⟨t0, t1, t2, t3⟩ := ⟨_, rfl, rfl⟩
  have hheader : b = enc32 l ++ t.toBytes ++ rest := by rw [hb, hl, htBytes]; rfl
  have hrest : 4 ≤ rest.length := by rw [hb] at hlen; simpa using hlen
  rw [← htBytes, ← ht, ← hlNat, ← allLetters_iff]
  refine ⟨fun ⟨x, hx, hletter⟩ => ?_, fun hletters => ⟨fun hshort => ?_, fun d tail c0 c1 c2 c3 htail hd => ?_⟩⟩
  · rw [hheader]
    exact frameParse_nonLetter hrest (Bool.eq_false_of_not_eq_true fun h => hletter ((allLetters_iff t).1 h x hx))
  · rw [hheader] at hshort ⊢
    exact frameParse_truncated hrest hletters hshort
  · obtain ⟨cr, hcr, hcrNat⟩ : ∃ cr : Word, enc32 cr = [c0, c1, c2, c3] ∧ cr.toNat = bigEndian c0 c1 c2 c3 :=
      ⟨_, enc32_append .., append_toNat ..⟩
    have hlayout : b = enc32 l ++ t.toBytes ++ d ++ enc32 cr ++ tail := by rw [hheader, htail, hcr]; simp
    rw [← hcrNat, hlayout, frameParse_layout hd.symm hletters, hd, BitVec.ofNat_toNat, BitVec.setWidth_eq]
    refine ⟨fun hsum => if_pos fun h => hsum (congrArg _ h), fun hsum => ?_⟩
    obtain rfl := BitVec.eq_of_toNat_eq hsum
    exact if_neg (not_not_intro rfl)

/-- Settles O25. -/
theorem frameParseFailsInThreeWays : Obligations.FrameParseFailsInThreeWays := by
  intro b e h
  obtain rfl | rfl | rfl := frameParse_error h <;> decide

end Sys2Proof.Machine
end

section
/-! Checksum sensitivity (42_chunk.md R83). Settles O33: a frame with one bit of type or data flipped is still laid out as a
frame, with the old length and stored checksum, and a message that differs in one byte has another checksum. -/

namespace Sys2Proof.Machine

/-! ## One flipped bit -/

theorem xor_bit_ne (x : Byte) {j : Nat} (hj : j < 8) : x ^^^ BitVec.ofNat 8 (2 ^ j) ≠ x := by
  have hbit : ∀ j < 8, BitVec.ofNat 8 (2 ^ j) ≠ 0#8 := by decide
  intro h
  exact hbit j hj ((BitVec.xor_right_inj x).1 (h.trans BitVec.xor_zero.symm))

theorem flipBit_append_right (a b : Bytes) (k j : Nat) : flipBit (a ++ b) (a.length + k) j = a ++ flipBit b k j :=
  List.modifyTailIdx_add _ k a b

theorem flipBit_append_left {a : Bytes} {k : Nat} (b : Bytes) (j : Nat) (hk : k < a.length) :
    flipBit (a ++ b) k j = flipBit a k j ++ b := by
  induction a generalizing k with
  | nil => exact absurd hk (Nat.not_lt_zero k)
  | cons x a ih =>
    cases k with
    | zero => rfl
    | succ k => exact congrArg (x :: ·) (ih (Nat.lt_of_succ_lt_succ hk))

theorem byteAt_flipBit_ne {k n : Nat} (b : Bytes) (j : Nat) (h : k ≠ n) : byteAt (flipBit b k j) n = byteAt b n :=
  List.getElem?_modify_ne _ _ h

theorem crc32_flipBit_ne {m : Bytes} {i j : Nat} (hi : i < m.length) (hj : j < 8) : crc32 (flipBit m i j) ≠ crc32 m := by
  obtain ⟨before, x, after, rfl, -, hflip⟩ := List.exists_of_modify (· ^^^ BitVec.ofNat 8 (2 ^ j)) hi
  rw [flipBit, hflip]
  exact fun h => xor_bit_ne x hj (crc32_one_byte h)

/-! ## The flipped frame -/

/-- The type bytes stand at offsets 4 to 7 (R80). -/
theorem byteAt_type_field (l : Word) (t : TypeCode) (rest : Bytes) {n : Nat} (hn : n < 4) :
    byteAt (enc32 l ++ t.toBytes ++ rest) (4 + n) = t.toBytes[n]? := by
  rw [byteAt, List.append_assoc, List.getElem?_append_right (Nat.le_add_right 4 n), enc32_length, Nat.add_sub_cancel_left,
    List.getElem?_append_left hn]

/-- With a bit of its type or data flipped, a frame keeps its layout. -/
theorem flipBit_frame (c : Chunk) {i : Nat} (j : Nat) (hi : i < (c.type.toBytes ++ c.data).length) :
    ∃ (t : TypeCode) (d : Bytes), t.toBytes ++ d = flipBit (c.type.toBytes ++ c.data) i j ∧ d.length = c.data.length ∧
      flipBit (frame c) (4 + i) j = enc32 c.length ++ t.toBytes ++ d ++ enc32 c.crc := by
  have hlen : (flipBit (c.type.toBytes ++ c.data) i j).length = 4 + c.data.length := by
    rw [flipBit, List.length_modify, List.length_append, TypeCode.toBytes_length]
  obtain ⟨t, ht⟩ := typeOfBytes_isSome (b := (flipBit (c.type.toBytes ++ c.data) i j).take 4) (by simp [hlen])
  have hsplit : t.toBytes ++ (flipBit (c.type.toBytes ++ c.data) i j).drop 4 = flipBit (c.type.toBytes ++ c.data) i j := by
    rw [← typeOfBytes_some ht, List.take_append_drop]
  have hframe : frame c = enc32 c.length ++ (c.type.toBytes ++ c.data ++ enc32 c.crc) := by simp [frame]
  refine ⟨t, _, hsplit, by simp [hlen], ?_⟩
  rw [List.append_assoc (enc32 _), hsplit, hframe, List.append_assoc (enc32 _), ← flipBit_append_left _ j hi]
  exact flipBit_append_right (enc32 c.length) _ i j

/-- The type bytes are letters as before, but for a flipped one. -/
theorem allLetters_flipped {c : Chunk} {t : TypeCode} {d : Bytes} {i j : Nat} (hletters : c.type.allLetters = true)
    (hflip : t.toBytes ++ d = flipBit (c.type.toBytes ++ c.data) i j) (h : 4 ≤ i ∨ ∀ x ∈ t.toBytes[i]?, LetterByte x) :
    t.allLetters = true := by
  refine (allLetters_iff t).2 fun b hb => ?_
  obtain ⟨n, hn, rfl⟩ := List.getElem_of_mem hb
  by_cases hin : i = n
  · subst hin
    exact h.resolve_left (Nat.not_le_of_lt hn) _ (List.getElem?_eq_getElem hn)
  · have hold : byteAt (c.type.toBytes ++ c.data) n = some t.toBytes[n] := by
      rw [← byteAt_flipBit_ne _ j hin, ← hflip, byteAt, List.getElem?_append_left hn, List.getElem?_eq_getElem hn]
    rw [byteAt, List.getElem?_append_left (l₁ := c.type.toBytes) hn] at hold
    exact (allLetters_iff _).1 hletters _ (List.mem_of_getElem? hold)

/-- Settles O33: the flipped byte decides whether the type is still four letters; if it is, the checksums differ. -/
theorem oneFlippedBitIsAlwaysFound : Obligations.OneFlippedBitIsAlwaysFound := by
  rintro c k j ⟨hlength, hletters, hcrc⟩ hk hlast hj
  obtain ⟨i, rfl⟩ := Nat.exists_eq_add_of_le hk
  have hi : i < (c.type.toBytes ++ c.data).length := by simp; omega
  obtain ⟨t, d, hflip, hd, hlayout⟩ := flipBit_frame c j hi
  have hbyte (hi4 : i < 4) : byteAt (flipBit (frame c) (4 + i) j) (4 + i) = t.toBytes[i]? := by
    rw [hlayout, List.append_assoc (_ ++ _), byteAt_type_field _ _ _ hi4]
  refine ⟨fun hletter => ?_, fun ⟨hk8, x, hx, hletter⟩ => ?_⟩
  · have ht : t.allLetters = true := by
      refine allLetters_flipped hletters hflip ((lt_or_ge i 4).symm.imp_right fun hi4 => ?_)
      rw [← hbyte hi4]
      exact hletter.resolve_left (by omega)
    have hsum : crc32 (t.toBytes ++ d) ≠ c.crc := by
      rw [hflip, hcrc]
      exact crc32_flipBit_ne hi hj
    rw [hlayout, ← List.append_nil (_ ++ enc32 c.crc), frameParse_layout (hlength.trans hd.symm) ht, if_pos hsum]
  · rw [hbyte (by omega)] at hx
    have ht : t.allLetters = false :=
      Bool.eq_false_of_not_eq_true fun h => hletter ((allLetters_iff t).1 h x (List.mem_of_getElem? hx))
    rw [hlayout, List.append_assoc (_ ++ _)]
    exact frameParse_nonLetter (by simp) ht

end Sys2Proof.Machine
end

section
/-! Well-formed UTF-8 (42_chunk.md R79). Settles O29: a sequence of the table is one that fits a row, the ranges of the rows'
first bytes are disjoint, so the row the model finds first is the only one that fits, and the model's loop takes the one
possible split. -/

namespace Sys2Proof.Machine

/-- The byte lies in the range. -/
abbrev InRange (r : Byte × Byte) (b : Byte) : Prop := r.1.toNat ≤ b.toNat ∧ b.toNat ≤ r.2.toNat

/-- R79's table as the model writes it and as the statement does. -/
theorem utf8Sequence_iff_row (p : Bytes) : Utf8Sequence p ↔ ∃ row ∈ utf8Rows, List.Forall₂ InRange row p := by
  match p with
  | [] => simp [Utf8Sequence, utf8Rows]
  | [a] => simp [Utf8Sequence, utf8Rows, InRange]
  | [a, b] => simp [Utf8Sequence, utf8Rows, InRange]
  | [a, b, c] => simp [Utf8Sequence, utf8Rows, InRange]; omega
  | [a, b, c, d] => simp [Utf8Sequence, utf8Rows, InRange]; omega
  | _ :: _ :: _ :: _ :: _ :: _ => simp [Utf8Sequence, utf8Rows]

theorem Utf8Sequence.length_pos {p : Bytes} (h : Utf8Sequence p) : 0 < p.length := by
  refine List.length_pos_iff.2 ?_
  rintro rfl
  simp [Utf8Sequence] at h

theorem utf8Rows_disjoint : ∀ row ∈ utf8Rows, ∀ row' ∈ utf8Rows, row = row' ∨
    ∀ r ∈ row.head?, ∀ r' ∈ row'.head?, r.2.toNat < r'.1.toNat ∨ r'.2.toNat < r.1.toNat := by simp [utf8Rows]

/-- The first byte names the row: bytes that begin with a sequence of one row begin with none of another. -/
theorem utf8Row_unique {row row' : List (Byte × Byte)} {d rest rest' : Bytes} (hrow : row ∈ utf8Rows)
    (hrow' : row' ∈ utf8Rows) (h : afterRow row d = some rest) (h' : afterRow row' d = some rest') : row = row' := by
  obtain ⟨p, rfl, hp⟩ := (afterRow_iff ..).1 h
  obtain ⟨p', hd, hp'⟩ := (afterRow_iff ..).1 h'
  cases hp with
  | nil => exact absurd hrow (by decide)
  | cons hb _ =>
    cases hp' with
    | nil => exact absurd hrow' (by decide)
    | cons hb' _ =>
      obtain ⟨rfl, -⟩ := List.cons.inj hd
      refine (utf8Rows_disjoint _ hrow _ hrow').resolve_right fun hdisjoint => ?_
      have := hdisjoint _ rfl _ rfl
      omega

theorem afterUtf8Seq_iff (d rest : Bytes) : afterUtf8Seq d = some rest ↔ ∃ p, Utf8Sequence p ∧ d = p ++ rest := by
  constructor
  · intro h
    obtain ⟨row, hrow, hafter⟩ := List.exists_of_findSome?_eq_some h
    obtain ⟨p, hd, hfits⟩ := (afterRow_iff row d rest).1 hafter
    exact ⟨p, (utf8Sequence_iff_row p).2 ⟨row, hrow, hfits⟩, hd⟩
  · rintro ⟨p, hp, hd⟩
    obtain ⟨row, hrow, hfits⟩ := (utf8Sequence_iff_row p).1 hp
    have hafter := (afterRow_iff row d rest).2 ⟨p, hd, hfits⟩
    obtain ⟨r, hr⟩ := Option.isSome_iff_exists.1 (List.findSome?_isSome_iff (f := (afterRow · d)).2
      ⟨row, hrow, Option.isSome_of_eq_some hafter⟩)
    obtain ⟨row', hrow', hafter'⟩ := List.exists_of_findSome?_eq_some hr
    obtain rfl := utf8Row_unique hrow' hrow hafter' hafter
    exact hr.trans (hafter'.symm.trans hafter)

/-- Every sequence takes a byte, so fuel for each byte is enough. -/
theorem utf8Sequences_iff {fuel : Nat} {d : Bytes} (hfuel : d.length ≤ fuel) :
    utf8Sequences fuel d = true ↔ ∃ parts : List Bytes, (∀ p ∈ parts, Utf8Sequence p) ∧ d = parts.flatten := by
  induction fuel generalizing d with
  | zero =>
    obtain rfl := List.length_eq_zero_iff.1 (Nat.le_zero.1 hfuel)
    exact iff_of_true rfl ⟨[], nofun, rfl⟩
  | succ fuel ih =>
    cases d with
    | nil => exact iff_of_true rfl ⟨[], nofun, rfl⟩
    | cons b d =>
      have hrest {p rest : Bytes} (hp : Utf8Sequence p) (hd : b :: d = p ++ rest) : rest.length ≤ fuel := by
        have hlen : (b :: d).length = p.length + rest.length := by rw [hd, List.length_append]
        have := hp.length_pos
        omega
      rw [utf8Sequences]
      constructor
      · intro h
        split at h
        · next rest hseq =>
          obtain ⟨p, hp, hd⟩ := (afterUtf8Seq_iff ..).1 hseq
          obtain ⟨parts, hparts, rfl⟩ := (ih (hrest hp hd)).1 h
          exact ⟨p :: parts, List.forall_mem_cons.2 ⟨hp, hparts⟩, hd⟩
        · cases h
      · rintro ⟨parts, hparts, hd⟩
        cases parts with
        | nil => cases hd
        | cons p parts =>
          obtain ⟨hp, hparts⟩ := List.forall_mem_cons.1 hparts
          rw [(afterUtf8Seq_iff ..).2 ⟨p, hp, hd⟩]
          exact (ih (hrest hp hd)).2 ⟨parts, hparts, rfl⟩

/-- Settles O29. -/
theorem utf8WellFormedIsASplitIntoTableRows : Obligations.Utf8WellFormedIsASplitIntoTableRows :=
  fun _ => utf8Sequences_iff le_rfl

end Sys2Proof.Machine
end

section
/-! The commands of family 2 (42_chunk.md): what each does in every state, and the round trip through the host. Settles O21,
O23, O24, O26, O27, O28, O30 and O32. -/

namespace Sys2Proof.Machine

variable {s : State}

/-! ## Building and parsing (R72, R73) -/

theorem exec_chunkNew : exec .chunkNew s = withType s fun t => done (s.loadChunk (newChunk t s.input)) := by
  rw [← memReadAll_eq]
  rfl

/-- Settles O21. -/
theorem chunkNewBuildsTheRecord : Obligations.ChunkNewBuildsTheRecord := by
  intro s
  rw [exec_chunkNew]
  exact ⟨withType_valid, withType_empty⟩

theorem exec_chunkParse_ok {c : Chunk} {n : Nat} (h : frameParse s.input = .ok (c, n)) :
    exec .chunkParse s = .next { s with cr := ⟨true, c⟩, result := BitVec.ofNat 32 n, status := 0x00#8 } := by
  change execChunkParse s = _
  rw [execChunkParse, memReadAll_eq, h]
  rfl

theorem exec_chunkParse_error {e : ErrorKind} (h : frameParse s.input = .error e) :
    exec .chunkParse s = .next { s with status := e.code } := by
  change execChunkParse s = _
  rw [execChunkParse, memReadAll_eq, h]
  rfl

/-- Settles O23. -/
theorem chunkParseLoadsTheParsedFrame : Obligations.ChunkParseLoadsTheParsedFrame :=
  fun _ => ⟨fun _ _ => exec_chunkParse_ok, exec_chunkParse_error, exec_chunkParse_error, exec_chunkParse_error⟩

/-- Settles O24. -/
theorem chunkParseAcceptsEveryValidFrame : Obligations.ChunkParseAcceptsEveryValidFrame := by
  intro s c rest hvalid hin
  have hparse : frameParse s.input = .ok (c, 12 + c.length.toNat) := hin ▸ frameParse_frame rest hvalid
  obtain ⟨hlength, -, -⟩ := hvalid
  rw [exec_chunkParse_ok hparse, hlength]

/-! ## Reading the record (R74 to R78) -/

theorem exec_chunkLength : exec .chunkLength s = withChunk s fun c => done (s.setResult c.length) := rfl

theorem exec_chunkCrc : exec .chunkCrc s = withChunk s fun c => done (s.setResult c.crc) := rfl

theorem exec_chunkType : exec .chunkType s = withChunk s fun c => done ((s.loadType c.type).memWrite c.type.toBytes) := rfl

/-- Settles O26. -/
theorem chunkAccessorsReadTheRecord : Obligations.ChunkAccessorsReadTheRecord := by
  intro s
  refine ⟨fun hvalid => ?_, fun hempty i hi => ?_⟩
  · rw [exec_chunkLength, exec_chunkCrc, exec_chunkType]
    exact ⟨withChunk_valid hvalid, withChunk_valid hvalid, withChunk_valid hvalid⟩
  · simp only [List.mem_cons, List.not_mem_nil, or_false] at hi
    obtain rfl | rfl | rfl := hi
    · exact exec_chunkLength.trans (withChunk_empty hempty)
    · exact exec_chunkCrc.trans (withChunk_empty hempty)
    · exact exec_chunkType.trans (withChunk_empty hempty)

/-- Settles O27. -/
theorem chunkDataWritesTheData : Obligations.ChunkDataWritesTheData := by
  intro s
  rw [exec_chunkData]
  exact ⟨withChunk_empty, fun hvalid hover => (withChunk_valid hvalid).trans (emit_over hover),
    fun hvalid hfits => (withChunk_valid hvalid).trans (emit_fits hfits)⟩

/-- Settles O28. -/
theorem chunkDataAsStringChecksUtf8First : Obligations.ChunkDataAsStringChecksUtf8First := by
  intro s
  rw [exec_chunkDataAsString]
  refine ⟨withChunk_empty, fun hvalid hutf8 => ?_, fun hvalid hutf8 hover => ?_, fun hvalid hutf8 hfits => ?_⟩
  · rw [withChunk_valid hvalid, hutf8]
    rfl
  · rw [withChunk_valid hvalid, if_pos hutf8]
    exact emit_over hover
  · rw [withChunk_valid hvalid, if_pos hutf8]
    exact emit_fits hfits

/-! ## Serializing (R81, R82) -/

theorem exec_chunkSerialize_fits (hvalid : s.cr.valid = true) (hfits : 12 + s.cr.chunk.length.toNat ≤ s.cfg.maxOut) :
    exec .chunkSerialize s = .next { s with output := frame s.cr.chunk, status := 0x00#8 } := by
  rw [exec_chunkSerialize, withChunk_valid hvalid]
  exact emit_fits hfits

/-- Settles O30. -/
theorem chunkSerializeWritesTheFrame : Obligations.ChunkSerializeWritesTheFrame := by
  refine fun s => ⟨fun hempty => ?_, fun hvalid hover => ?_, exec_chunkSerialize_fits⟩
  · exact exec_chunkSerialize.trans (withChunk_empty hempty)
  · rw [exec_chunkSerialize, withChunk_valid hvalid]
    exact emit_over hover

/-- A run whose first step answers a next state goes on from there. -/
theorem run_succ_of_step {M : Host.Core} {s t : M.State} (k : Nat) (h : M.step s = .next t) : M.run (k + 1) s = M.run k t := by
  rw [Host.Core.run, h]

/-- A pending command word runs its command, with the event used up. -/
theorem step_encode {i : Instr} {rest : List HostEvent} (h : s.pending = .cmd (encode i) :: rest) :
    step s = exec i (s.setPending rest) := (step_cmd h).trans (hostCmd_assigned (decode_encode i))

theorem step_writeIn_fits {b : Bytes} {rest : List HostEvent} (h : s.pending = .writeIn b :: rest)
    (hfits : b.length ≤ s.cfg.maxIn) : step s = .next { s with pending := rest, input := b } :=
  (step_writeIn h).trans (hostWriteIn_fits hfits)

theorem step_chunkSerialize {rest : List HostEvent} (h : s.pending = .cmd (encode .chunkSerialize) :: rest)
    (hvalid : s.cr.valid = true) (hfits : 12 + s.cr.chunk.length.toNat ≤ s.cfg.maxOut) :
    step s = .next { s with pending := rest, output := frame s.cr.chunk, status := 0x00#8 } :=
  (step_encode h).trans (exec_chunkSerialize_fits hvalid hfits)

theorem step_chunkParse {c : Chunk} {rest : List HostEvent} (h : s.pending = .cmd (encode .chunkParse) :: rest)
    (hin : s.input = frame c) (hc : c.Valid) : step s = .next { s with
      pending := rest, cr := ⟨true, c⟩, result := BitVec.ofNat 32 (12 + c.length.toNat), status := 0x00#8 } := by
  have hparse : frameParse s.input = .ok (c, 12 + c.length.toNat) := by
    rw [hin, ← List.append_nil (frame c), frameParse_frame [] hc]
  exact (step_encode h).trans (exec_chunkParse_ok hparse)

/-- Settles O32: the frame CHUNK_SERIALIZE leaves in OUT fits IN, and there it parses to the record in CR, which the
invariant says is valid. The count is below 2^32 since it is at most MAX_IN. -/
theorem serializeThenParseRestoresTheChunk : Obligations.SerializeThenParseRestoresTheChunk := by
  intro s hinv hvalid hout hin hpending
  obtain ⟨hchunk, -⟩ := hinv.chunk hvalid
  obtain ⟨⟨-, hmaxIn⟩, -⟩ := hinv.config
  have hframe : (frame s.cr.chunk).length ≤ s.cfg.maxIn := by
    obtain ⟨hlength, -, -⟩ := hchunk
    rwa [frame_length, ← hlength]
  have hcr : (⟨true, s.cr.chunk⟩ : ChunkReg) = s.cr := by rw [← hvalid]
  have hcount : (BitVec.ofNat 32 (12 + s.cr.chunk.length.toNat)).toNat = 12 + s.cr.chunk.length.toNat :=
    Nat.mod_eq_of_lt (by omega)
  have hrun := (run_succ_of_step (M := core) 2 (step_chunkSerialize hpending hvalid hout)).trans <|
    (run_succ_of_step (M := core) 1 (step_writeIn_fits rfl (by exact hframe))).trans <|
    run_succ_of_step (M := core) 0 (step_chunkParse rfl rfl hchunk)
  exact ⟨_, hrun, rfl, hcr, hcount, rfl, rfl⟩

end Sys2Proof.Machine
end

section
/-! ContainerParse (43_container.md R84, R85) and the stream it is the inverse of (R93, R95). Settles O37, O36, O45 and O35. -/

namespace Sys2Proof.Machine

variable {l : List Chunk} {b : Bytes}

/-! ## The size of a stream -/

theorem sig_length : sig.length = 8 := rfl

theorem containerStream_length (l : List Chunk) :
    (containerStream l).length = 8 + (l.map fun c => 12 + c.data.length).sum := by
  simp [containerStream, sig_length, List.length_flatMap]

/-- A stream has more bytes than it has records, so the loop's fuel outlasts the records it has read. -/
theorem length_lt_containerStream_length (l : List Chunk) : l.length < (containerStream l).length := by
  have hsum := List.length_le_sum_of_one_le (l.map fun c => 12 + c.data.length) (by simp; omega)
  rw [List.length_map] at hsum
  rw [containerStream_length]
  omega

/-- Settles O45: in a valid record the declared length is the number of data bytes. -/
theorem streamLengthIsEightPlusTheFrames : Obligations.StreamLengthIsEightPlusTheFrames := by
  intro l hl
  have hlengths : (l.map fun c => 12 + c.data.length) = l.map fun c => 12 + c.length.toNat :=
    List.map_congr_left fun c hc => by
      obtain ⟨hlength, -, -⟩ := hl c hc
      rw [hlength]
  rw [containerStream_length, hlengths]

/-! ## The signature -/

theorem containerParse_invalidSignature (h : b.take 8 ≠ sig) : containerParse b = .error .invalidSignature := by
  have hsig : startsWithSig b = false := Bool.eq_false_of_not_eq_true fun hs => h ((startsWithSig_iff b).1 hs)
  simp [containerParse, hsig]

/-- Settles O35: the first eight bytes of a buffer that has fewer are not eight. -/
theorem containerParseWantsTheSignature : Obligations.ContainerParseWantsTheSignature := by
  rintro b (hshort | hother)
  · refine containerParse_invalidSignature fun h => ?_
    have hlen : (b.take 8).length = 8 := congrArg List.length h
    rw [List.length_take] at hlen
    omega
  · exact containerParse_invalidSignature hother

/-! ## The loop -/

theorem framesParse_nil (fuel : Nat) : framesParse fuel [] = .ok [] := by cases fuel <;> rfl

theorem framesParse_badFrame {fuel : Nat} {e : ErrorKind} (hfuel : 0 < fuel) (hne : b ≠ []) (h : frameParse b = .error e) :
    framesParse fuel b = .error e := by
  obtain ⟨fuel, rfl⟩ := Nat.exists_eq_add_one.2 hfuel
  obtain ⟨x, b, rfl⟩ := List.exists_cons_of_ne_nil hne
  rw [framesParse, h]

theorem containerParse_containerStream (hl : ∀ c ∈ l, c.Valid) : containerParse (containerStream l) = .ok l := by
  simpa [framesParse_nil] using containerParse_stream hl []

theorem containerParse_badFrame {rest : Bytes} {e : ErrorKind} (hl : ∀ c ∈ l, c.Valid) (hne : rest ≠ [])
    (h : frameParse rest = .error e) : containerParse (containerStream l ++ rest) = .error e := by
  have hfuel : 0 < (containerStream l ++ rest).length - l.length := by
    have := length_lt_containerStream_length l
    rw [List.length_append]
    omega
  rw [containerParse_stream hl, framesParse_badFrame hfuel hne h]

/-- A good frame next is one record more on the stream read so far. -/
theorem containerStream_append_goodFrame {rest : Bytes} {c : Chunk} {n : Nat} (h : frameParse rest = .ok (c, n)) :
    containerStream l ++ rest = containerStream (l ++ [c]) ++ rest.drop n := by
  obtain ⟨-, -, -, hframe⟩ := frameParse_ok_frame h
  rw [containerStream_snoc, hframe, List.append_assoc, List.take_append_drop]

/-- Settles O37. -/
theorem containerParseIsTheInverseOfTheStream : Obligations.ContainerParseIsTheInverseOfTheStream :=
  fun _ _ => ⟨containerParse_ok, fun ⟨hvalid, hb⟩ => hb ▸ containerParse_containerStream hvalid⟩

/-- Settles O36. -/
theorem containerParseFollowsItsLoop : Obligations.ContainerParseFollowsItsLoop := by
  refine fun l rest hl => ⟨?_, fun e => containerParse_badFrame hl, fun c n hparse => ?_⟩
  · rintro rfl
    rw [List.append_nil]
    exact containerParse_containerStream hl
  · obtain ⟨hvalid, -⟩ := frameParse_ok_frame hparse
    exact ⟨hvalid, containerStream_append_goodFrame hparse⟩

end Sys2Proof.Machine
end

section
/-! The commands of family 3 (43_container.md): what each does in every state, and the two laws of R95 and R96 through the
host. Settles O34, O38 to O44, O46 and O47. -/

namespace Sys2Proof.Machine

variable {s : State} {l before after : List Chunk} {c : Chunk}

/-! ## Clearing, counting and the signature (R86, R91, R94) -/

/-- Settles O34: none of the three has a branch. -/
theorem clearCountAndSignature : Obligations.ClearCountAndSignature := fun _ => ⟨rfl, rfl, rfl⟩

/-! ## Parsing (R87) -/

theorem exec_pngParse_ok (h : containerParse s.input = .ok l) (hfits : l.length ≤ s.cfg.maxChunks) :
    exec .pngParse s = .next { s with seq := l, result := BitVec.ofNat 32 l.length, status := 0x00#8 } := by
  change execPngParse s = _
  rw [execPngParse, memReadAll_eq, h]
  exact if_neg (Nat.not_lt.2 hfits)

theorem exec_pngParse_over (h : containerParse s.input = .ok l) (hover : s.cfg.maxChunks < l.length) :
    exec .pngParse s = .next { s with status := 0x13#8 } := by
  change execPngParse s = _
  rw [execPngParse, memReadAll_eq, h]
  exact if_pos hover

theorem exec_pngParse_error {e : ErrorKind} (h : containerParse s.input = .error e) :
    exec .pngParse s = .next { s with status := e.code } := by
  change execPngParse s = _
  rw [execPngParse, memReadAll_eq, h]
  rfl

/-- Settles O38: ContainerParse fails with no kind but the four. -/
theorem pngParseReplacesTheSequenceOrKeepsIt : Obligations.PngParseReplacesTheSequenceOrKeepsIt := by
  refine fun s => ⟨fun l => exec_pngParse_ok, fun l => exec_pngParse_over, fun e h => ⟨e.code, ?_, exec_pngParse_error h⟩⟩
  obtain rfl | rfl | rfl | rfl := containerParse_error h <;> decide

/-- Settles O39. -/
theorem pngParseAcceptsEveryValidStream : Obligations.PngParseAcceptsEveryValidStream := by
  intro s l hl hin
  have hparse : containerParse s.input = .ok l := hin ▸ containerParse_containerStream hl
  exact ⟨exec_pngParse_ok hparse, exec_pngParse_over hparse⟩

/-! ## Appending (R88) -/

theorem exec_pngAppend : exec .pngAppend s = withChunk s fun c =>
    if s.seq.length = s.cfg.maxChunks then fail .capacityExceeded s else done (s.setSeq (s.seq ++ [c])) := rfl

theorem exec_pngAppend_room (hvalid : s.cr.valid = true) (hroom : s.seq.length ≠ s.cfg.maxChunks) :
    exec .pngAppend s = .next { s with seq := s.seq ++ [s.cr.chunk], status := 0x00#8 } := by
  rw [exec_pngAppend, withChunk_valid hvalid]
  exact if_neg hroom

/-- Settles O40. -/
theorem pngAppendAddsAtTheTail : Obligations.PngAppendAddsAtTheTail := by
  refine fun s => ⟨fun hempty => ?_, fun hvalid hfull => ?_, exec_pngAppend_room⟩
  · exact exec_pngAppend.trans (withChunk_empty hempty)
  · rw [exec_pngAppend, withChunk_valid hvalid]
    exact if_pos hfull

/-! ## The first match (R89, R90, R70) -/

theorem keyMatch_of_toBytes {k : Bytes} {t : TypeCode} (h : t.toBytes = k) : keyMatch k t = true := keyMatch_iff.2 h.symm

theorem keyMatch_of_toBytes_ne {k : Bytes} {t : TypeCode} (h : t.toBytes ≠ k) : keyMatch k t = false :=
  Bool.eq_false_of_not_eq_true fun hmatch => h (keyMatch_iff.1 hmatch).symm

/-- The first record of the list that matches is the one with no match before it. -/
theorem find?_keyMatch {k : Bytes} (hbefore : ∀ d ∈ before, keyMatch k d.type = false) (hc : keyMatch k c.type = true) :
    (before ++ c :: after).find? (fun d => keyMatch k d.type) = some c :=
  List.find?_eq_some_iff_append.2 ⟨hc, before, after, rfl, fun d hd => by rw [hbefore d hd]; rfl⟩

theorem exec_pngFind_some (h : s.seq.find? (fun d => keyMatch s.input d.type) = some c) :
    exec .pngFind s = .next { s with cr := ⟨true, c⟩, result := 1#32, status := 0x00#8 } := by
  change execPngFind s = _
  rw [execPngFind, memReadAll_eq, h]
  rfl

theorem exec_pngFind_none (h : s.seq.find? (fun d => keyMatch s.input d.type) = none) :
    exec .pngFind s = .next { s with result := 0#32, status := 0x00#8 } := by
  change execPngFind s = _
  rw [execPngFind, memReadAll_eq, h]
  rfl

/-- Settles O41. -/
theorem pngFindReturnsTheFirstMatch : Obligations.PngFindReturnsTheFirstMatch := by
  refine fun s => ⟨fun before after c hseq hbefore hc => exec_pngFind_some ?_, fun hnone => exec_pngFind_none ?_⟩
  · rw [hseq]
    exact find?_keyMatch (fun d hd => keyMatch_of_toBytes_ne (hbefore d hd)) (keyMatch_of_toBytes hc)
  · exact List.find?_eq_none.2 fun d hd => by simp [keyMatch_of_toBytes_ne (hnone d hd)]

theorem exec_pngRemoveFirst_some (h : removeFirst s.input s.seq = some l) :
    exec .pngRemoveFirst s = .next { s with seq := l, status := 0x00#8 } := by
  change execPngRemoveFirst s = _
  rw [execPngRemoveFirst, memReadAll_eq, h]
  rfl

theorem exec_pngRemoveFirst_none (h : removeFirst s.input s.seq = none) :
    exec .pngRemoveFirst s = .next { s with status := 0x06#8 } := by
  change execPngRemoveFirst s = _
  rw [execPngRemoveFirst, memReadAll_eq, h]
  rfl

/-- A removal in terms of the bytes of the types. -/
theorem exec_pngRemoveFirst_match (hseq : s.seq = before ++ c :: after) (hbefore : ∀ d ∈ before, d.type.toBytes ≠ s.input)
    (hc : c.type.toBytes = s.input) :
    exec .pngRemoveFirst s = .next { s with seq := before ++ after, status := 0x00#8 } := by
  refine exec_pngRemoveFirst_some ?_
  rw [hseq]
  exact removeFirst_append (fun d hd => keyMatch_of_toBytes_ne (hbefore d hd)) (keyMatch_of_toBytes hc)

theorem exec_pngRemoveFirst_noMatch (hnone : ∀ d ∈ s.seq, d.type.toBytes ≠ s.input) :
    exec .pngRemoveFirst s = .next { s with status := 0x06#8 } :=
  exec_pngRemoveFirst_none (removeFirst_none fun d hd => keyMatch_of_toBytes_ne (hnone d hd))

/-- Settles O42. -/
theorem pngRemoveFirstRemovesTheFirstMatch : Obligations.PngRemoveFirstRemovesTheFirstMatch :=
  fun _ => ⟨fun _ _ _ => exec_pngRemoveFirst_match, exec_pngRemoveFirst_noMatch⟩

/-! ## The indexed record (R92) -/

theorem exec_pngGet_some (h : s.seq[s.arg.toNat]? = some c) :
    exec .pngGet s = .next { s with cr := ⟨true, c⟩, status := 0x00#8 } := by
  change execPngGet s = _
  rw [execPngGet, h]
  rfl

theorem exec_pngGet_none (h : s.seq[s.arg.toNat]? = none) : exec .pngGet s = .next { s with status := 0x12#8 } := by
  change execPngGet s = _
  rw [execPngGet, h]
  rfl

/-- Settles O43. -/
theorem pngGetCopiesTheIndexedChunk : Obligations.PngGetCopiesTheIndexedChunk := by
  refine fun s => ⟨fun hrange => exec_pngGet_none (List.getElem?_eq_none hrange), fun before after c hseq hindex => ?_⟩
  exact exec_pngGet_some (by simp [hseq, ← hindex])

/-! ## Serializing (R93) -/

theorem exec_pngSerialize : exec .pngSerialize s = emit (containerStream s.seq).length (containerStream s.seq) s := rfl

theorem exec_pngSerialize_fits (h : (containerStream s.seq).length ≤ s.cfg.maxOut) :
    exec .pngSerialize s = .next { s with output := containerStream s.seq, status := 0x00#8 } :=
  exec_pngSerialize.trans (emit_fits h)

/-- Settles O44: the stream written out in the statement is `containerStream`. -/
theorem pngSerializeWritesTheStream : Obligations.PngSerializeWritesTheStream := by
  intro s stream hstream
  obtain rfl : stream = containerStream s.seq := by rw [hstream, containerStream, List.flatMap_def]; rfl
  exact ⟨fun hover => exec_pngSerialize.trans (emit_over hover), exec_pngSerialize_fits⟩

/-! ## Through the host (R95, R96) -/

theorem core_run_succ {t : State} (k : Nat) (h : step s = .next t) : core.run (k + 1) s = core.run k t :=
  run_succ_of_step (M := core) k h

section
variable {rest : List HostEvent}

theorem step_pngParse (h : s.pending = .cmd (encode .pngParse) :: rest) (hparse : containerParse s.input = .ok l)
    (hfits : l.length ≤ s.cfg.maxChunks) : step s = .next { s with
      pending := rest, seq := l, result := BitVec.ofNat 32 l.length, status := 0x00#8 } :=
  (step_encode h).trans (exec_pngParse_ok hparse hfits)

theorem step_pngSerialize (h : s.pending = .cmd (encode .pngSerialize) :: rest)
    (hfits : (containerStream s.seq).length ≤ s.cfg.maxOut) :
    step s = .next { s with pending := rest, output := containerStream s.seq, status := 0x00#8 } :=
  (step_encode h).trans (exec_pngSerialize_fits hfits)

theorem step_pngAppend (h : s.pending = .cmd (encode .pngAppend) :: rest) (hvalid : s.cr.valid = true)
    (hroom : s.seq.length ≠ s.cfg.maxChunks) :
    step s = .next { s with pending := rest, seq := s.seq ++ [s.cr.chunk], status := 0x00#8 } :=
  (step_encode h).trans (exec_pngAppend_room hvalid hroom)

theorem step_pngRemoveFirst (h : s.pending = .cmd (encode .pngRemoveFirst) :: rest) (hseq : s.seq = before ++ c :: after)
    (hbefore : ∀ d ∈ before, d.type.toBytes ≠ s.input) (hc : c.type.toBytes = s.input) :
    step s = .next { s with pending := rest, seq := before ++ after, status := 0x00#8 } :=
  (step_encode h).trans (exec_pngRemoveFirst_match hseq hbefore hc)

theorem step_pngRemoveFirst_noMatch (h : s.pending = .cmd (encode .pngRemoveFirst) :: rest)
    (hnone : ∀ d ∈ s.seq, d.type.toBytes ≠ s.input) : step s = .next { s with pending := rest, status := 0x06#8 } :=
  (step_encode h).trans (exec_pngRemoveFirst_noMatch hnone)

end

/-- Settles O46: what parses is the stream of the list, so the stream of the new SEQ is IN, and IN fits OUT. -/
theorem parseThenSerializeReproducesTheInput : Obligations.ParseThenSerializeReproducesTheInput := by
  intro s l hparse hseq hout hpending
  obtain ⟨-, hstream⟩ := containerParse_ok hparse
  have hrun := (core_run_succ 1 (step_pngParse hpending hparse hseq)).trans <|
    core_run_succ 0 (step_pngSerialize rfl (hstream ▸ hout))
  exact ⟨_, hrun, hstream.symm, rfl, rfl⟩

theorem TypeCode.toBytes_injective {t u : TypeCode} (h : t.toBytes = u.toBytes) : t = u :=
  (keyMatch_toBytes t u).1 (keyMatch_iff.2 h)

/-- Settles O47: the removal takes the first record of the type in SEQ with the copy of CR at its tail. -/
theorem appendThenRemoveRestoresTheSequence : Obligations.AppendThenRemoveRestoresTheSequence := by
  intro s rest hvalid hroom hkey hpending
  have no_match {l : List Chunk} (hl : ∀ d ∈ l, d.type ≠ s.cr.chunk.type) : ∀ d ∈ l, d.type.toBytes ≠ s.input :=
    fun d hd h => hl d hd (TypeCode.toBytes_injective (h.trans hkey))
  have append_then (k : Nat) := core_run_succ k (step_pngAppend hpending hvalid hroom)
  refine ⟨fun hnone => ?_, fun before after d hseq hbefore hd => ?_⟩
  · have remove_then (k : Nat) := (append_then (k + 1)).trans <| core_run_succ k <|
      step_pngRemoveFirst rfl rfl (no_match hnone) hkey.symm
    rw [List.append_nil] at remove_then
    exact ⟨remove_then 0, (remove_then 1).trans <|
      core_run_succ 0 <| step_pngRemoveFirst_noMatch rfl (no_match hnone)⟩
  · have htail : s.seq ++ [s.cr.chunk] = before ++ d :: (after ++ [s.cr.chunk]) := by simp [hseq]
    rw [List.append_assoc]
    exact (append_then 1).trans <| core_run_succ 0 <|
      step_pngRemoveFirst rfl htail (no_match hbefore) (hd ▸ hkey.symm)

end Sys2Proof.Machine
end

section
/-! How a command ends (60_exceptions.md R97 to R99), and that a host which keeps its duty meets no stop. Settles O48, O50, O52,
O11 and O57. -/

namespace Sys2Proof.Machine

variable {s : State}

/-! ## Every command (R97, R98, R99) -/

/-- Settles O48. -/
theorem everyCommandCompletesWithAListedStatus : Obligations.EveryCommandCompletesWithAListedStatus := by
  intro i s
  obtain ⟨t, h⟩ := exec_is_next i s
  refine ⟨t, h, ?_⟩
  obtain ⟨e, rfl⟩ | hok := exec_raises_or_completes h
  · exact e.code_legal
  · exact hok ▸ statusOk_legal

/-- Settles O50: a command that does not complete raises its error from the state it began in. -/
theorem aFailingCommandWritesOnlyStatus : Obligations.AFailingCommandWritesOnlyStatus := by
  intro i s t h hfail
  obtain ⟨e, rfl⟩ | hok := exec_raises_or_completes h
  · rfl
  · exact absurd hok hfail

/-- Settles O52: no command reads STATUS, and either end of a command writes over it, so each command's two outcomes are the
same by definition. -/
theorem statusNeverMattersToTheNextCommand : Obligations.StatusNeverMattersToTheNextCommand := by
  intro i s x
  cases i <;> rfl

/-! ## The host's events (R102, R103, 70_reset_and_hazards.md R109) -/

/-- Settles O11. -/
theorem noHostEventNoChange : Obligations.NoHostEventNoChange := fun _ => step_idle

theorem hostCmd_keeps_host_side (op : Byte) (s : State) :
    ∃ t, hostCmd op s = .next t ∧ t.cfg = s.cfg ∧ t.pending = s.pending := by
  cases hop : decode op with
  | ok i =>
    obtain ⟨t, h⟩ := exec_is_next i s
    obtain ⟨hcfg, -, -, hpending, -⟩ := exec_host_side h
    exact ⟨t, (hostCmd_assigned hop).trans h, hcfg, hpending⟩
  | error r => exact ⟨_, hostCmd_unassigned hop, rfl, rfl⟩

/-- A transaction that exists has an effect, on neither the parameters nor the events after it. -/
theorem hostEvent_keeps_host_side {e : HostEvent} (h : e.wellFormed s.cfg = true) :
    ∃ t, hostEvent e s = .next t ∧ t.cfg = s.cfg ∧ t.pending = s.pending := by
  cases e with
  | writeIn b => exact ⟨_, hostWriteIn_fits (of_decide_eq_true h), rfl, rfl⟩
  | cmd op => exact hostCmd_keeps_host_side op s
  | writeArg | read | readOut | readIn | reset => exact ⟨_, rfl, rfl, rfl⟩

/-- Settles O57: the oldest event is a transaction that exists, and those left keep the duty for the same parameters. -/
theorem aLegalHostIsNeverStopped : Obligations.ALegalHostIsNeverStopped := by
  intro s h
  cases hp : s.pending with
  | nil => exact ⟨s, step_idle hp, h⟩
  | cons e rest =>
    rw [State.HostLegal, hp, List.forall_mem_cons] at h
    obtain ⟨he, hrest⟩ := h
    obtain ⟨t, ht, hcfg, hpending⟩ := hostEvent_keeps_host_side (s := s.setPending rest) he
    refine ⟨t, (step_event hp).trans ht, ?_⟩
    rw [State.HostLegal, hcfg, hpending]
    exact hrest

end Sys2Proof.Machine
end

section
/-! Settles O49 (60_exceptions.md R97): which command raises which code. First the table by its column "raised by" and one rule
for each shared operation, then the commands. -/

namespace Sys2Proof.Machine

variable {s t : State} {i : Instr} {o : Host.Outcome State Fault Refusal}

/-- The column "raised by" of R97. -/
def raisedBy : ErrorKind → List Instr
  | .invalidSignature => [.pngParse]
  | .invalidTypeCode => [.typeFromStr, .typeFromBytes, .chunkParse, .pngParse]
  | .truncatedBuffer => [.u32Dec, .chunkParse, .pngParse]
  | .checksumMismatch => [.chunkParse, .pngParse]
  | .invalidUtf8 => [.chunkDataAsString]
  | .chunkNotFound => [.pngRemoveFirst]
  | .illegalCommand => []
  | .operandInvalid => [.typeRead, .typeIsValid, .typeIsCritical, .typeIsPublic, .typeIsReservedBitValid, .typeIsSafeToCopy,
      .chunkNew, .chunkLength, .chunkType, .chunkData, .chunkCrc, .chunkDataAsString, .chunkSerialize, .pngAppend]
  | .indexOutOfRange => [.pngGet]
  | .capacityExceeded => [.chunkData, .chunkDataAsString, .chunkSerialize, .pngParse, .pngAppend, .pngSerialize]

/-- Whatever next state the outcome has, its STATUS is OK or the code of an error whose row of R97 names `i`. -/
def RaisesAsListed (i : Instr) (o : Host.Outcome State Fault Refusal) : Prop :=
  ∀ t, o = .next t → t.status = statusOk ∨ ∃ e, i ∈ raisedBy e ∧ t.status = e.code

theorem RaisesAsListed.mem_raisedBy (h : RaisesAsListed i o) (ht : o = .next t) {e : ErrorKind} (hcode : t.status = e.code) :
    i ∈ raisedBy e := by
  obtain hok | ⟨f, hf, hfcode⟩ := h t ht
  · exact absurd (hcode.symm.trans hok) e.code_ne_ok
  · exact ErrorKind.code_injective (hfcode.symm.trans hcode) ▸ hf

/-! ## One rule for each shared operation -/

theorem raisesAsListed_done : RaisesAsListed i (done s) := fun _ ht => by cases ht; exact .inl rfl

theorem raisesAsListed_fail {e : ErrorKind} (hi : i ∈ raisedBy e := by decide) : RaisesAsListed i (fail e s) :=
  fun _ ht => by cases ht; exact .inr ⟨e, hi, rfl⟩

theorem raisesAsListed_emit {n : Nat} {v : Bytes} (hi : i ∈ raisedBy .capacityExceeded := by decide) :
    RaisesAsListed i (emit n v s) := by
  unfold emit
  split
  · exact raisesAsListed_fail hi
  · exact raisesAsListed_done

theorem raisesAsListed_withType {k : TypeCode → Host.Outcome State Fault Refusal} (hk : ∀ u, RaisesAsListed i (k u))
    (hi : i ∈ raisedBy .operandInvalid := by decide) : RaisesAsListed i (withType s k) := by
  unfold withType
  split
  · exact hk _
  · exact raisesAsListed_fail hi

theorem raisesAsListed_withChunk {k : Chunk → Host.Outcome State Fault Refusal} (hk : ∀ c, RaisesAsListed i (k c))
    (hi : i ∈ raisedBy .operandInvalid := by decide) : RaisesAsListed i (withChunk s k) := by
  unfold withChunk
  split
  · exact hk _
  · exact raisesAsListed_fail hi

/-! ## The commands -/

theorem raisesAsListed_execU32Dec : RaisesAsListed .u32Dec (execU32Dec s) := by
  unfold execU32Dec
  split
  · exact raisesAsListed_fail
  split
  · exact raisesAsListed_done
  · exact raisesAsListed_fail

theorem raisesAsListed_typeFromInput (hi : i ∈ raisedBy .invalidTypeCode := by decide) :
    RaisesAsListed i (typeFromInput s) := by
  unfold typeFromInput
  split
  · exact raisesAsListed_fail hi
  split
  · split
    · exact raisesAsListed_done
    · exact raisesAsListed_fail hi
  · exact raisesAsListed_fail hi

theorem raisesAsListed_typeTest (p : TypeCode → Bool) (hi : i ∈ raisedBy .operandInvalid := by decide) :
    RaisesAsListed i (typeTest p s) :=
  raisesAsListed_withType (fun _ => raisesAsListed_done) hi

theorem raisesAsListed_execChunkParse : RaisesAsListed .chunkParse (execChunkParse s) := by
  unfold execChunkParse
  split
  · exact raisesAsListed_done
  · next herror =>
    obtain rfl | rfl | rfl := frameParse_error herror <;> exact raisesAsListed_fail

theorem raisesAsListed_execChunkDataAsString : RaisesAsListed .chunkDataAsString (execChunkDataAsString s) := by
  refine raisesAsListed_withChunk fun c => ?_
  split
  · exact raisesAsListed_emit
  · exact raisesAsListed_fail

theorem raisesAsListed_execPngParse : RaisesAsListed .pngParse (execPngParse s) := by
  unfold execPngParse
  split
  · next herror =>
    obtain rfl | rfl | rfl | rfl := containerParse_error herror <;> exact raisesAsListed_fail
  split
  · exact raisesAsListed_fail
  · exact raisesAsListed_done

theorem raisesAsListed_execPngAppend : RaisesAsListed .pngAppend (execPngAppend s) := by
  refine raisesAsListed_withChunk fun c => ?_
  split
  · exact raisesAsListed_fail
  · exact raisesAsListed_done

/-- "Nothing found" is a result of PNG_FIND and no error (43_container.md R89). -/
theorem raisesAsListed_execPngFind : RaisesAsListed .pngFind (execPngFind s) := by
  unfold execPngFind
  split
  · exact raisesAsListed_done
  · exact raisesAsListed_done

theorem raisesAsListed_execPngRemoveFirst : RaisesAsListed .pngRemoveFirst (execPngRemoveFirst s) := by
  unfold execPngRemoveFirst
  split
  · exact raisesAsListed_done
  · exact raisesAsListed_fail

theorem raisesAsListed_execPngGet : RaisesAsListed .pngGet (execPngGet s) := by
  unfold execPngGet
  split
  · exact raisesAsListed_done
  · exact raisesAsListed_fail

theorem raisesAsListed_exec (i : Instr) (s : State) : RaisesAsListed i (exec i s) := by
  cases i with
  | crc32 | u32Enc | pngClear | pngCount | pngSignature => exact raisesAsListed_done
  | u32Dec => exact raisesAsListed_execU32Dec
  | typeFromStr | typeFromBytes => exact raisesAsListed_typeFromInput
  | typeRead | chunkNew => exact raisesAsListed_withType fun _ => raisesAsListed_done
  | typeIsValid | typeIsCritical | typeIsPublic | typeIsReservedBitValid | typeIsSafeToCopy =>
    exact raisesAsListed_typeTest _
  | chunkParse => exact raisesAsListed_execChunkParse
  | chunkLength | chunkType | chunkCrc => exact raisesAsListed_withChunk fun _ => raisesAsListed_done
  | chunkData | chunkSerialize => exact raisesAsListed_withChunk fun _ => raisesAsListed_emit
  | chunkDataAsString => exact raisesAsListed_execChunkDataAsString
  | pngParse => exact raisesAsListed_execPngParse
  | pngAppend => exact raisesAsListed_execPngAppend
  | pngFind => exact raisesAsListed_execPngFind
  | pngRemoveFirst => exact raisesAsListed_execPngRemoveFirst
  | pngGet => exact raisesAsListed_execPngGet
  | pngSerialize => exact raisesAsListed_emit

/-- Settles O49: no two errors share a code, so a code in STATUS is that of the one error whose row names the command. -/
theorem eachCodeIsRaisedOnlyByItsCommands : Obligations.EachCodeIsRaisedOnlyByItsCommands := by
  intro i s t h
  have mem {e : ErrorKind} (hcode : t.status = e.code) : i ∈ raisedBy e := (raisesAsListed_exec i s).mem_raisedBy h hcode
  exact ⟨fun h01 => List.mem_singleton.1 (mem (e := .invalidSignature) h01),
    mem (e := .invalidTypeCode), mem (e := .truncatedBuffer), mem (e := .checksumMismatch),
    fun h05 => List.mem_singleton.1 (mem (e := .invalidUtf8) h05),
    fun h06 => List.mem_singleton.1 (mem (e := .chunkNotFound) h06),
    fun h10 => List.not_mem_nil (mem (e := .illegalCommand) h10),
    mem (e := .operandInvalid),
    fun h12 => List.mem_singleton.1 (mem (e := .indexOutOfRange) h12),
    mem (e := .capacityExceeded)⟩

end Sys2Proof.Machine
end

section
/-! The reset event (70_reset_and_hazards.md R107). Settles O9. -/

namespace Sys2Proof.Machine

variable {s : State} {rest : List HostEvent}

/-- The block takes the reset state of its own parameters; the host's side keeps the events after this one and the answers
(log entry 8). -/
theorem step_reset (h : s.pending = .reset :: rest) :
    step s = .next { State.resetOf s.cfg with pending := rest, answers := s.answers } := step_event h

/-- Settles O9: each field is that of the reset state (10_state.md R31) or of the host's side, by definition. -/
theorem resetEventGivesTheResetValues : Obligations.ResetEventGivesTheResetValues := by
  intro s rest hp
  exact ⟨_, step_reset hp, rfl, rfl, rfl, rfl, rfl, rfl, rfl, rfl, rfl, rfl, rfl⟩

end Sys2Proof.Machine
end
